-- ==== Sys2Proof/Word.lean ====
section
/-! DEFINITION. The word and byte types of CH64F. -/

namespace Sys2Proof

/-- Every value of the algorithm, every register slot and every command word is 64 bits wide (00_scope R8). -/
abbrev Word := BitVec 64

/-- The unit of the input space (20_memory R50). -/
abbrev Byte := BitVec 8

end Sys2Proof
end

