-- ==== Sys2Proof/Config.lean ====
section
/-! DEFINITION. What is fixed for one machine (00_scope R9), and the free values the spec leaves open. -/

namespace Sys2Proof

/-- The parameters of R9 that a register value or an address can depend on. They are data of a state that no step
writes, so a statement about every state is a statement about every machine (assumption log 1 and 2).
MIX_LAT, N_MIX, INPUT_BUS and RESET_KIND are not here: by R11 nothing observable depends on them (log 14, 15). -/
structure Config where
  /-- `ADDR_W`, the width in bits of an input-space address: 1 to 64. -/
  addrW : Nat
  /-- `REG_BASE`, the platform address of slot 0: 128-byte aligned. -/
  regBase : Nat
  deriving DecidableEq, Repr

/-- The legal values of R9. -/
abbrev Config.Legal (c : Config) : Prop := 1 ≤ c.addrW ∧ c.addrW ≤ 64 ∧ c.regBase % 128 = 0

/-- `ADDR_W` is 64 by default (R9). `REG_BASE` is OPEN: 0 is the model's DESIGN CHOICE (log 2). -/
def Config.standard : Config := { addrW := 64, regBase := 0 }

/-- FREE VALUES: the n-th value that the spec leaves open. It has no body, so nothing can be proved of any value of it.
Drawn for the working registers after ABORT and after the RESET event (10_state R45, log 9) and for the RESULT of a
HASH64 whose window changed (20_memory R64, log 10). -/
opaque Config.freeWord : Nat → Word

end Sys2Proof
end

