-- ==== Sys2Proof/Syntax.lean ====
section
/-! DEFINITION. The instructions of CH64F: one constructor for each row of the opcode table, and the encoded forms. -/

namespace Sys2Proof

/-- The 16 slots of the register file (10_state R21). -/
inductive Slot where
  | id
  | status
  | cmd
  | seed
  | src
  | len
  | opa
  | opb
  | result
  /-- Slots 9 to 15 (R31). -/
  | reserved (n : Nat)
  deriving DecidableEq, Repr

/-- One constructor for each row of `spec/opcode_table.json`. The first five are command words (format CMD64,
30_encoding R72), the last two register-port transactions (format PORT, R75). -/
inductive Instr where
  /-- 0x0, no operation (43_host_operations R138). -/
  | nop
  /-- 0x1, digest of the window (41_digest_core R97). -/
  | hash64
  /-- 0x2, digest of OPA and OPB (42_fixed_pair R130). -/
  | hash64Pair
  /-- 0x3, one mixer evaluation (40_mixing_primitive R90). -/
  | mix64
  /-- 0xF, stop the command in progress (43_host_operations R139). -/
  | abort
  /-- Header `0iiii` (43_host_operations R136). -/
  | regRead (slot : Slot)
  /-- Header `1iiii` with its DATA word (43_host_operations R135). -/
  | regWrite (slot : Slot) (data : Word)
  deriving DecidableEq, Repr

/-- The two encoded formats that the outside world presents (30_encoding R70). FSM3, the third, is internal. -/
inductive Encoded where
  /-- Format PORT: the 5-bit header and the 64 data lines; a REG_READ does not look at the lines (R75, log 6). -/
  | port (header : BitVec 5) (data : Word)
  /-- Format CMD64: a command word, the value of a REG_WRITE to CMD as command dispatch sees it (R71, log 5). -/
  | cmd64 (word : Word)
  deriving DecidableEq, Repr

/-- Why a command word is illegal (30_encoding R73). -/
inductive DecodeError where
  /-- R73 (a): MBZ is zero and OP is 0x4 to 0xE. -/
  | reservedOpcode (word : Word)
  /-- R73 (b): a bit of 63:4 is set. -/
  | mbzNotZero (word : Word)
  deriving DecidableEq, Repr

end Sys2Proof
end

