-- ==== Sys2Proof/Machine/State.lean ====
section
/-! DEFINITION. The state of CH64F as plain data, the reasons a step can stop, and the state after reset. -/

namespace Sys2Proof.Machine

open Sys2Proof

/-- The fields of STATUS (10_state R23). Bits 63:8 are not state: they always read 0. -/
structure Status where
  busy : Bool
  done : Bool
  err : Bool
  ovr : Bool
  errcode : BitVec 4
  deriving DecidableEq, Repr

/-- The storage registers of the host register file (10_state R25 to R30). ID is a constant (R22), CMD holds no state
(R24), slots 9 to 15 hold none (R31), and STATUS is `State.status`. -/
structure Regs where
  seed : Word
  /-- `ADDR_W` bits: bits 63:`ADDR_W` are 0 (R26). -/
  src : Word
  len : Word
  opa : Word
  opb : Word
  result : Word
  deriving DecidableEq, Repr

/-- The working registers (10_state R35 to R42). -/
structure Work where
  /-- currentState -/
  cs : Word
  /-- duplicatedState -/
  ds : Word
  /-- `ADDR_W` bits: the address of the next unabsorbed byte. -/
  ptr : Word
  /-- the count of bytes not yet absorbed -/
  rem : Word
  /-- startingLength -/
  slen : Word
  /-- tail value a -/
  ta : Word
  /-- tail value b -/
  tb : Word
  /-- finalization intermediate -/
  w : Word
  deriving DecidableEq, Repr

/-- The ENGINE state (10_state R43; its 3-bit code is `Fsm.code`). -/
inductive Fsm where
  | idle
  | bulk
  | fold
  | medium
  | tail
  | fin1
  | fin2
  | mixo
  deriving DecidableEq, Repr

/-- The length classes of the classifier (41_digest_core R96, 30_encoding R81). -/
inductive LengthClass where
  | zero
  | t1to3
  | t4to8
  | t9to16
  | med
  | bulk
  deriving DecidableEq, Repr

/-- The error causes of a rejected command (60_exceptions R152). -/
inductive CmdError where
  | illegalCmd
  | range
  deriving DecidableEq, Repr

/-- The window of the HASH64 in progress, taken at acceptance (20_memory R52). `stable` is false once the host has
changed a byte of it (R64, log 10). -/
structure Window where
  base : Nat
  len : Nat
  stable : Bool
  deriving DecidableEq, Repr

/-- The input space: (address, byte) pairs, addresses strictly rising, no entry equal to what an unlisted address
reads as (`Memory.wf`). -/
abbrev Memory := List Host.Cell

/-- One atomic move of an agent (00_scope R7, 20_memory R63). -/
inductive Move where
  /-- The ENGINE is scheduled. -/
  | engine
  /-- The HOST issues one transaction. -/
  | host (e : Encoded)
  /-- The reset event (70_reset R167). -/
  | reset
  /-- The HOST changes one byte of the input space, which it owns (20_memory R50, R64). -/
  | store (addr : Nat) (byte : Byte)
  deriving DecidableEq, Repr

/-- The whole state: the parameters of the machine, what the spec gives the block (`status` to `input`; the window with
20_memory R52 and R64), and the model's own record of the outside world (`moves` to `draws`). -/
structure State where
  /-- Parameters, never written by a step (log 1, 2). -/
  cfg : Config
  status : Status
  regs : Regs
  fsm : Fsm
  work : Work
  /-- The window of the HASH64 in progress, none at every other time. -/
  window : Option Window
  /-- The input space, as the input read port shows it. -/
  input : Memory
  /-- The interleaving still to come, the next move first (20_memory R63, log 3). -/
  moves : List Move
  /-- The word the HOST's last REG_READ returned (43_host_operations R136, log 7). -/
  rdata : Option Word
  /-- The read set of the last step, ascending (20_memory R55, log 14). -/
  reads : List Nat
  /-- How many free values have been drawn (log 9). -/
  draws : Nat
  deriving DecidableEq, Repr

/-- Why the machine can stop. No instruction of the opcode table stops: each of these is raised only in a state that no
run reaches, or by a move that names an address the spec does not give. -/
inductive Fault where
  /-- An input address at or above 2^ADDR_W, which does not exist (20_memory R50). Raised by the ENGINE's reading steps,
  in states that no run reaches (R56), and by a `Move.store` outside the space. SAFE (log 13). -/
  | outsideInputSpace (addr : Nat)
  /-- BULK with less than 64 bytes left, or MEDIUM with less than 16, where `rem` would go below 0. Raised by the ENGINE in
  states that no run reaches (41_digest_core R107, R111). SAFE (log 13). -/
  | absorbUnderflow
  /-- TAIL with more than 16 bytes left, for which the tail function has no case (41_digest_core R101). Raised by the
  ENGINE in states that no run reaches (R107). SAFE (log 13). -/
  | noTailCase
  deriving DecidableEq, Repr

/-- Why an instruction can be refused. -/
inductive Refusal where
  /-- An instruction without a meaning, by its mnemonic, raised by `exec`'s arm alone. No arm does so now. SAFE. -/
  | notModelled (mnemonic : String)
  deriving DecidableEq, Repr

/-- The machine right after reset (10_state R48). The working registers are unspecified there (R45): zero is a DESIGN
CHOICE (log 8). The input space is the host's and lists nothing (log 11). -/
def State.reset : State where
  cfg := Config.standard
  status := { busy := false, done := false, err := false, ovr := false, errcode := 0 }
  regs := { seed := 0, src := 0, len := 0, opa := 0, opb := 0, result := 0 }
  fsm := .idle
  work := { cs := 0, ds := 0, ptr := 0, rem := 0, slen := 0, ta := 0, tb := 0, w := 0 }
  window := none
  input := []
  moves := []
  rdata := none
  reads := []
  draws := 0

end Sys2Proof.Machine
end

