-- ==== Sys2Proof/Machine/Mixer.lean ====
section
/-! DEFINITION. The full-product folding unit. -/

namespace Sys2Proof.Machine

open Sys2Proof

/-- `mix64(a, b)`: the exact 128-bit product, its upper half XOR its lower half (40_mixing_primitive R85, R86). -/
def mix64 (a b : Word) : Word :=
  let p := a.toNat * b.toNat
  BitVec.ofNat 64 (p / 2 ^ 64) ^^^ BitVec.ofNat 64 (p % 2 ^ 64)

end Sys2Proof.Machine
end

