-- ==== Sys2Proof/WellFormed.lean ====
section
/-! DEFINITION. Which instructions have an encoding. -/

namespace Sys2Proof

/-- A reserved slot has an index of 9 to 15 (10_state R31); every other slot is one index. -/
def Slot.wellFormed : Slot → Bool
  | .reserved n => 9 ≤ n && n ≤ 15
  | _ => true

/-- Command words have no operand field (30_encoding R71); a transaction names a slot (R75). -/
def Instr.wellFormed : Instr → Bool
  | .nop | .hash64 | .hash64Pair | .mix64 | .abort => true
  | .regRead slot => slot.wellFormed
  | .regWrite slot _ => slot.wellFormed

end Sys2Proof
end

