-- ==== Sys2Proof/Decode.lean ====
section
/-! DEFINITION. The decoder and the encoder, both from 30_encoding, and the byte-addressed form of the register port. -/

namespace Sys2Proof

/-- Slot-index decode (R76): 0 to 8 select registers, 9 to 15 reserved slots. -/
def Slot.ofIndex (i : BitVec 4) : Slot :=
  match i.toNat with
  | 0 => .id
  | 1 => .status
  | 2 => .cmd
  | 3 => .seed
  | 4 => .src
  | 5 => .len
  | 6 => .opa
  | 7 => .opb
  | 8 => .result
  | n => .reserved n

/-- Format PORT (R75): bit 4 is WE, bits 3:0 are IDX. Every header is a legal transaction (R76). -/
def decodePort (header : BitVec 5) (data : Word) : Instr :=
  let slot := Slot.ofIndex (header.extractLsb' 0 4)
  if header.getLsbD 4 then .regWrite slot data else .regRead slot

/-- Format CMD64 (R71, R72): a word is decoded only by exact match on all 64 bits; R73 names the two illegal kinds. -/
def decodeCommand (word : Word) : Except DecodeError Instr :=
  if word = 0x0000000000000000#64 then .ok .nop
  else if word = 0x0000000000000001#64 then .ok .hash64
  else if word = 0x0000000000000002#64 then .ok .hash64Pair
  else if word = 0x0000000000000003#64 then .ok .mix64
  else if word = 0x000000000000000F#64 then .ok .abort
  else if word.extractLsb' 4 60 = 0#60 then .error (.reservedOpcode word)
  else .error (.mbzNotZero word)

/-- The decoder, total on both formats. -/
def decode : Encoded → Except DecodeError Instr
  | .port header data => .ok (decodePort header data)
  | .cmd64 word => decodeCommand word

/-- The index of a slot (10_state R21). -/
def Slot.index : Slot → BitVec 4
  | .id => 0
  | .status => 1
  | .cmd => 2
  | .seed => 3
  | .src => 4
  | .len => 5
  | .opa => 6
  | .opb => 7
  | .result => 8
  | .reserved n => BitVec.ofNat 4 n

/-- The header of R75: WE above IDX. -/
def portHeader (we : Bool) (slot : Slot) : BitVec 5 := BitVec.ofBool we ++ slot.index

/-- The encoder, from R72 and R75. The data lines of a REG_READ carry nothing; 0 is written there. -/
def encode : Instr → Encoded
  | .nop => .cmd64 0x0000000000000000#64
  | .hash64 => .cmd64 0x0000000000000001#64
  | .hash64Pair => .cmd64 0x0000000000000002#64
  | .mix64 => .cmd64 0x0000000000000003#64
  | .abort => .cmd64 0x000000000000000F#64
  | .regRead slot => .port (portHeader false slot) 0
  | .regWrite slot data => .port (portHeader true slot) data

/-- An instruction whose bits are numbered as the opcode table numbers them (log 5): a CMD64 row has 64 bits; a PORT row
has its header in bits 4:0 of one byte, and DATA in the 64 bits above that byte. DESIGN CHOICE (log 5): the header of a
REG_WRITE may come without its DATA here (`nbits` at most 8), which R75 does not provide for; the missing DATA is then 0. -/
def tableWord (nbits w : Nat) : Option Encoded :=
  if nbits = 64 then
    if w < 2 ^ 64 then some (.cmd64 (BitVec.ofNat 64 w)) else none
  else if nbits ≤ 8 then
    if w < 2 ^ 5 then some (.port (BitVec.ofNat 5 w) 0) else none
  else if nbits = 72 then
    if w % 2 ^ 8 < 2 ^ 5 ∧ w < 2 ^ 72 then some (.port (BitVec.ofNat 5 (w % 2 ^ 8)) (BitVec.ofNat 64 (w / 2 ^ 8)))
    else none
  else none

/-- What the decoder reads from an instruction in the opcode table's bit numbering. -/
def decodeTableWord (nbits w : Nat) : Option Instr :=
  match tableWord nbits w with
  | none => none
  | some e =>
    match decode e with
    | .ok i => some i
    | .error _ => none

/-- The platform address of a slot when the port is mapped on a byte-addressed bus (20_memory R61, 10_state R21). -/
def slotAddress (c : Config) (slot : Slot) : Nat := c.regBase + 8 * slot.index.toNat

/-- A whole-slot access of a byte-addressed bus as a register-port transaction (R61). Sub-word and misaligned accesses,
and addresses outside the 128 bytes, are the platform bridge's business and are no transaction of the block. -/
def busTransaction (c : Config) (we : Bool) (addr : Nat) (data : Word) : Option Encoded :=
  if c.regBase ≤ addr ∧ addr < c.regBase + 128 ∧ (addr - c.regBase) % 8 = 0 then
    some (.port (BitVec.ofBool we ++ BitVec.ofNat 4 ((addr - c.regBase) / 8)) data)
  else none

end Sys2Proof
end

