-- ==== Sys2Proof/Machine/Flags.lean ====
section
/-! DEFINITION. STATUS: its word and every change of its fields. The mixer and the datapath set no flag (10_state R34). -/

namespace Sys2Proof.Machine

open Sys2Proof

/-- The 64-bit value of STATUS (10_state R23, 43_host_operations R136). -/
def Status.word (st : Status) : Word :=
  (st.errcode ++ BitVec.ofBool st.ovr ++ BitVec.ofBool st.err ++ BitVec.ofBool st.done ++ BitVec.ofBool st.busy).setWidth 64

/-- The code of an error cause (60_exceptions R152). -/
def CmdError.code : CmdError → BitVec 4
  | .illegalCmd => 1
  | .range => 2

/-- STATUS after ABORT and after reset: every field 0 (43_host_operations R139, 70_reset R167). -/
def Status.cleared : Status := { busy := false, done := false, err := false, ovr := false, errcode := 0 }

/-- STATUS after the acceptance of a command (41_digest_core R97, 42_fixed_pair R130, 40_mixing_primitive R90). -/
def Status.accepted : Status := { busy := true, done := false, err := false, ovr := false, errcode := 0 }

/-- STATUS after a rejection; BUSY stays as it is (60_exceptions R151). -/
def Status.rejected (st : Status) (cause : CmdError) : Status :=
  { st with done := true, err := true, errcode := cause.code, ovr := false }

/-- STATUS after a dropped command (43_host_operations R143). -/
def Status.dropped (st : Status) : Status := { st with ovr := true }

/-- STATUS after a completion; ERR, ERRCODE and OVR stay (41_digest_core R108). -/
def Status.completed (st : Status) : Status := { st with busy := false, done := true }

end Sys2Proof.Machine
end

