-- ==== Sys2Proof/Machine/Operands.lean ====
section
/-! DEFINITION. What an operation takes in: the constants, the slots, the input bytes, the length class and the tail. -/

namespace Sys2Proof.Machine

open Sys2Proof

/-! ### Constants -/

/-- The constant table (10_state R46). -/
def pi0 : Word := 0x243F6A8885A308D3#64
/-- R46 -/
def pi1 : Word := 0x13198A2E03707344#64
/-- R46 -/
def pi2 : Word := 0xA4093822299F31D0#64
/-- R46 -/
def pi3 : Word := 0x082EFA98EC4E6C89#64
/-- R46 -/
def pi4 : Word := 0x452821E638D01377#64

/-- ID (10_state R22). -/
def idValue : Word := 0x4348363446000001#64

/-! ### Register slots -/

/-- The value a REG_READ of a slot returns (43_host_operations R136). -/
def readSlot (slot : Slot) (s : State) : Word :=
  match slot with
  | .id => idValue
  | .status => s.status.word
  | .cmd => 0
  | .seed => s.regs.seed
  | .src => s.regs.src
  | .len => s.regs.len
  | .opa => s.regs.opa
  | .opb => s.regs.opb
  | .result => s.regs.result
  | .reserved _ => 0

/-- The 8 bytes of a word, least significant first (42_fixed_pair R131, 20_memory R61). -/
def wordBytes (v : Word) : List Byte := (List.range 8).map fun i => (v >>> (8 * i)).setWidth 8

/-- The 8 bytes of a slot on a byte-addressed bus, from its platform address `slotAddress` on (20_memory R61). -/
def slotBytes (slot : Slot) (s : State) : List Byte := wordBytes (readSlot slot s)

/-- The output port `done_o` (10_state R49, 60_exceptions R156). -/
def State.doneOut (s : State) : Bool := s.status.done

/-- The output port `busy_o` (10_state R49, 60_exceptions R156). -/
def State.busyOut (s : State) : Bool := s.status.busy

/-! ### The input space -/

/-- What an address that the input space does not list reads as: a DESIGN CHOICE (log 11). -/
def blankByte : Byte := 0

/-- The byte at an address, `In[a]` (20_memory R53). -/
def Memory.read : Memory → Nat → Byte
  | [], _ => blankByte
  | (k, b) :: m, a => if k = a then b else Memory.read m a

/-- The number of addresses of the input space (20_memory R50). -/
def State.spaceSize (s : State) : Nat := 2 ^ s.cfg.addrW

/-- A value as an `ADDR_W`-bit register stores it (10_state R26, R37). -/
def truncAddr (c : Config) (v : Word) : Word := BitVec.ofNat 64 (v.toNat % 2 ^ c.addrW)

/-- n bytes from an address, assembled little-endian (20_memory R53): the lowest address supplies bits 7:0. -/
def leValue (byteAt : Nat → Byte) (addr : Nat) : Nat → Nat
  | 0 => 0
  | n + 1 => (byteAt addr).toNat + 256 * leValue byteAt (addr + 1) n

/-- `zext_64(MemRead(addr, n))` for n of 1, 4 and 8 (20_memory R53, 00_scope R13), over any source of bytes. -/
def memRead (byteAt : Nat → Byte) (addr n : Nat) : Word := BitVec.ofNat 64 (leValue byteAt addr n)

/-! ### The input-length classifier (41_digest_core R96) -/

/-- `class(rem)` -/
def lengthClass (rem : Nat) : LengthClass :=
  if rem = 0 then .zero
  else if rem ≤ 3 then .t1to3
  else if rem ≤ 8 then .t4to8
  else if rem ≤ 16 then .t9to16
  else if rem ≤ 64 then .med
  else .bulk

/-- The 3-bit length-class code (30_encoding R81). -/
def LengthClass.code : LengthClass → BitVec 3
  | .zero => 0
  | .t1to3 => 1
  | .t4to8 => 2
  | .t9to16 => 3
  | .med => 4
  | .bulk => 5

/-- `phase(rem)`: the next phase for a length class. -/
def phase (rem : Nat) : Fsm :=
  match lengthClass rem with
  | .bulk => .bulk
  | .med => .medium
  | .zero | .t1to3 | .t4to8 | .t9to16 => .tail

/-- The 3-bit ENGINE state code, format FSM3 (30_encoding R80). -/
def Fsm.code : Fsm → BitVec 3
  | .idle => 0
  | .bulk => 1
  | .fold => 2
  | .medium => 3
  | .tail => 4
  | .fin1 => 5
  | .fin2 => 6
  | .mixo => 7

/-- The state that a 3-bit code names: every code names one (30_encoding R80). -/
def Fsm.ofCode (c : BitVec 3) : Fsm :=
  match c.toNat with
  | 0 => .idle
  | 1 => .bulk
  | 2 => .fold
  | 3 => .medium
  | 4 => .tail
  | 5 => .fin1
  | 6 => .fin2
  | _ => .mixo

/-! ### Tail assembly -/

/-- `tail(p, r)` for r of 0 to 16 (41_digest_core R101): the pair (a, b) of tail values. For a larger r the spec gives no
case; TAIL never asks for one (`engineGuard`). -/
def tailValues (byteAt : Nat → Byte) (p r : Nat) : Word × Word :=
  match lengthClass r with
  | .zero => (0, 0)
  | .t1to3 =>
    let b0 := memRead byteAt p 1
    let bm := memRead byteAt (p + r / 2) 1
    let bl := memRead byteAt (p + r - 1) 1
    ((b0 <<< 16) ||| (bm <<< 8) ||| bl, 0)
  | .t4to8 => (memRead byteAt p 4, memRead byteAt (p + r - 4) 4)
  | .t9to16 | .med | .bulk => (memRead byteAt p 8, memRead byteAt (p + r - 8) 8)

/-! ### Read sets (20_memory R55) -/

/-- The addresses of one MemRead. -/
def readSpan (addr n : Nat) : List Nat := List.range' addr n

/-- One address put into an ascending list without repeats. -/
def insertAddress (a : Nat) : List Nat → List Nat
  | [] => [a]
  | x :: xs => if a < x then a :: x :: xs else if a = x then x :: xs else x :: insertAddress a xs

/-- A set of addresses in one form: ascending, without repeats. -/
def addressSet (addrs : List Nat) : List Nat := addrs.foldr insertAddress []

/-- The input-space addresses that the next ENGINE step reads, row by row of the table of R55. -/
def readSet (s : State) : List Nat :=
  let ptr := s.work.ptr.toNat
  let rem := s.work.rem.toNat
  match s.fsm with
  | .bulk => readSpan ptr 64
  | .medium => readSpan ptr 16
  | .tail =>
    match lengthClass rem with
    | .zero => []
    | .t1to3 => addressSet [ptr, ptr + rem / 2, ptr + rem - 1]
    | .t4to8 => addressSet (readSpan ptr 4 ++ readSpan (ptr + rem - 4) 4)
    | .t9to16 | .med | .bulk => addressSet (readSpan ptr 8 ++ readSpan (ptr + rem - 8) 8)
  | .idle | .fold | .fin1 | .fin2 | .mixo => []

end Sys2Proof.Machine
end

