-- ==== Sys2Proof/Machine/Ops.lean ====
section
/-! DEFINITION. The shared operations: memory, registers, rejection, dropping, completion, abort, reset. -/

namespace Sys2Proof.Machine

open Sys2Proof

/-! ### The input space -/

/-- One byte stored: the list stays ascending, and an entry that reads as a blank byte is not kept. -/
def Memory.write (m : Memory) (a : Nat) (b : Byte) : Memory :=
  match m with
  | [] => if b = blankByte then [] else [(a, b)]
  | (k, c) :: rest =>
    if a < k then if b = blankByte then (k, c) :: rest else (a, b) :: (k, c) :: rest
    else if a = k then if b = blankByte then rest else (a, b) :: rest
    else (k, c) :: Memory.write rest a b

/-- The canonical form of the input space. -/
abbrev Memory.wf (m : Memory) : Prop := m.Pairwise (fun c d => c.1 < d.1) ∧ ∀ c ∈ m, c.2 ≠ blankByte

/-- `In[a]` of a state (20_memory R53). -/
def State.inputByte (s : State) (a : Nat) : Byte := Memory.read s.input a

/-- Whether an address is in a window (20_memory R52). -/
def Window.contains (w : Window) (a : Nat) : Bool := w.base ≤ a && a < w.base + w.len

/-- The HOST changes a byte of the input space. A change inside the window of the HASH64 in progress breaks the duty of
20_memory R64; writing the value a byte already has is no change (log 10). -/
def hostStore (a : Nat) (b : Byte) (s : State) : State :=
  { s with
    input := Memory.write s.input a b
    window := s.window.map fun w =>
      if w.contains a && s.inputByte a ≠ b then { w with stable := false } else w }

/-- The ENGINE's record of the addresses it read (20_memory R55, log 14). -/
def recordReads (addrs : List Nat) (s : State) : State := { s with reads := addrs }

/-! ### Registers -/

/-- A REG_WRITE to a slot other than CMD (43_host_operations R135): read-only and reserved slots ignore it (10_state R31,
R32), and SRC keeps its low `ADDR_W` bits (10_state R26). -/
def writeOperand (slot : Slot) (v : Word) (s : State) : State :=
  match slot with
  | .seed => { s with regs := { s.regs with seed := v } }
  | .src => { s with regs := { s.regs with src := truncAddr s.cfg v } }
  | .len => { s with regs := { s.regs with len := v } }
  | .opa => { s with regs := { s.regs with opa := v } }
  | .opb => { s with regs := { s.regs with opb := v } }
  | .id | .status | .cmd | .result | .reserved _ => s

/-- The working registers with free values, `n` the first of them (10_state R45, log 9). `ptr` is `ADDR_W` bits. -/
def freeWork (c : Config) (n : Nat) : Work where
  cs := Config.freeWord n
  ds := Config.freeWord (n + 1)
  ptr := truncAddr c (Config.freeWord (n + 2))
  rem := Config.freeWord (n + 3)
  slen := Config.freeWord (n + 4)
  ta := Config.freeWord (n + 5)
  tb := Config.freeWord (n + 6)
  w := Config.freeWord (n + 7)

/-- Every working register becomes unspecified (10_state R45). -/
def forgetWork (s : State) : State := { s with work := freeWork s.cfg s.draws, draws := s.draws + 8 }

/-! ### The ends of a command -/

/-- `raise CmdError(code)`: the rejection of a command (60_exceptions R151). This is the block's one way to take an
exception: it saves nothing and goes nowhere (R158), and there is no return from it (R159). -/
def raiseCmdError (cause : CmdError) (s : State) : State := { s with status := s.status.rejected cause }

/-- A command written while BUSY is dropped (43_host_operations R143). -/
def dropCommand (s : State) : State := { s with status := s.status.dropped }

/-- A command other than NOP and ABORT: dropped while BUSY, else taken (43_host_operations R137). -/
def unlessBusy (take : State → State) (s : State) : State := if s.status.busy then dropCommand s else take s

/-- `complete(v)` (41_digest_core R108). -/
def complete (v : Word) (s : State) : State :=
  { s with
    regs := { s.regs with result := v }
    status := s.status.completed
    fsm := .idle
    window := none }

/-- The completion of a digest: any value where the window has changed (20_memory R64, log 10). -/
def completeDigest (v : Word) (s : State) : State :=
  match s.window with
  | some w => if w.stable then complete v s else complete (Config.freeWord s.draws) { s with draws := s.draws + 1 }
  | none => complete v s

/-- `abort()` (43_host_operations R139). -/
def abortCommand (s : State) : State :=
  forgetWork { s with fsm := .idle, status := Status.cleared, window := none }

/-- The reset event (70_reset R167). The input space, the parameters and what the HOST has read are not the block's to
reset. -/
def resetEvent (s : State) : State :=
  forgetWork { s with fsm := .idle, status := Status.cleared, window := none, regs := State.reset.regs }

end Sys2Proof.Machine
end

