-- ==== Sys2Proof/Machine/Hash.lean ====
section
/-! DEFINITION. The commands that start the ENGINE: HASH64, HASH64_PAIR and MIX64. -/

namespace Sys2Proof.Machine

open Sys2Proof

/-- HASH64 while idle: the range check, then acceptance (41_digest_core R97). -/
def acceptHash64 (s : State) : State :=
  if s.regs.src.toNat + s.regs.len.toNat > s.spaceSize then raiseCmdError .range s
  else
    let s0 := s.regs.seed ^^^ pi0
    { s with
      work := { s.work with cs := s0, ds := s0, slen := s.regs.len, rem := s.regs.len, ptr := s.regs.src }
      status := Status.accepted
      fsm := phase s.regs.len.toNat
      window := some { base := s.regs.src.toNat, len := s.regs.len.toNat, stable := true } }

/-- HASH64_PAIR while idle: acceptance (42_fixed_pair R130). It has no window. -/
def acceptHash64Pair (s : State) : State :=
  { s with
    work := { s.work with cs := s.regs.seed ^^^ pi0, ta := s.regs.opa, tb := s.regs.opb, slen := 16 }
    status := Status.accepted
    fsm := .fin1
    window := none }

/-- MIX64 while idle: acceptance (40_mixing_primitive R90). It has no window. -/
def acceptMix64 (s : State) : State :=
  { s with
    work := { s.work with ta := s.regs.opa, tb := s.regs.opb }
    status := Status.accepted
    fsm := .mixo
    window := none }

/-- HASH64 (41_digest_core R97, 43_host_operations R143). -/
def execHash64 (s : State) : Host.Outcome State Fault Refusal := .next (unlessBusy acceptHash64 s)

/-- HASH64_PAIR (42_fixed_pair R130, 43_host_operations R143). -/
def execHash64Pair (s : State) : Host.Outcome State Fault Refusal := .next (unlessBusy acceptHash64Pair s)

/-- MIX64 (40_mixing_primitive R90, 43_host_operations R143). -/
def execMix64 (s : State) : Host.Outcome State Fault Refusal := .next (unlessBusy acceptMix64 s)

end Sys2Proof.Machine
end

