-- ==== Sys2Proof/Machine/HostPort.lean ====
section
/-! DEFINITION. The host operations: NOP, ABORT, illegal words, command dispatch, REG_READ and REG_WRITE. -/

namespace Sys2Proof.Machine

open Sys2Proof

/-- NOP (43_host_operations R138). -/
def execNop (s : State) : Host.Outcome State Fault Refusal := .next s

/-- ABORT (43_host_operations R139). -/
def execAbort (s : State) : Host.Outcome State Fault Refusal := .next (abortCommand s)

/-- A command word that is none of the five: rejected while idle (43_host_operations R140), dropped while busy (R143). -/
def illegalCommand (s : State) : State := unlessBusy (raiseCmdError .illegalCmd) s

/-- `dispatch(v)`: the first case that applies is taken, in this order (43_host_operations R137). -/
def dispatch (v : Word) (s : State) : State :=
  if v = 0x0#64 then s
  else if v = 0xF#64 then abortCommand s
  else if s.status.busy then dropCommand s
  else if v = 0x1#64 then acceptHash64 s
  else if v = 0x2#64 then acceptHash64Pair s
  else if v = 0x3#64 then acceptMix64 s
  else raiseCmdError .illegalCmd s

/-- REG_READ: the value goes to the HOST and no state of the block changes (43_host_operations R136, 10_state R32). -/
def execRegRead (slot : Slot) (s : State) : Host.Outcome State Fault Refusal :=
  .next { s with rdata := some (readSlot slot s) }

/-- REG_WRITE (43_host_operations R135). -/
def execRegWrite (slot : Slot) (data : Word) (s : State) : Host.Outcome State Fault Refusal :=
  match slot with
  | .cmd => .next (dispatch data s)
  | .id | .status | .seed | .src | .len | .opa | .opb | .result | .reserved _ => .next (writeOperand slot data s)

end Sys2Proof.Machine
end

