-- ==== Sys2Proof/Machine/Dispatch.lean ====
section
/-! DEFINITION. One arm for each row of the opcode table. -/

namespace Sys2Proof.Machine

open Sys2Proof

def exec (i : Instr) (s : State) : Host.Outcome State Fault Refusal :=
  match i with
  | .nop => Sys2Proof.Machine.execNop s
  | .hash64 => Sys2Proof.Machine.execHash64 s
  | .hash64Pair => Sys2Proof.Machine.execHash64Pair s
  | .mix64 => Sys2Proof.Machine.execMix64 s
  | .abort => Sys2Proof.Machine.execAbort s
  | .regRead slot => Sys2Proof.Machine.execRegRead slot s
  | .regWrite slot data => Sys2Proof.Machine.execRegWrite slot data s

end Sys2Proof.Machine
end

