-- ==== Sys2Proof/Machine/Engine.lean ====
section
/-! DEFINITION. The ENGINE's steps (41_digest_core R98 to R105, 40_mixing_primitive R91). Every read of a step sees the
state as it was at its start (00_scope R14). -/

namespace Sys2Proof.Machine

open Sys2Proof

/-- BULK (41_digest_core R98): one 64-byte block into the two lanes. -/
def bulkStep (s : State) : State :=
  let ptr := s.work.ptr.toNat
  let a := memRead s.inputByte (ptr + 0) 8
  let b := memRead s.inputByte (ptr + 8) 8
  let c := memRead s.inputByte (ptr + 16) 8
  let d := memRead s.inputByte (ptr + 24) 8
  let e := memRead s.inputByte (ptr + 32) 8
  let f := memRead s.inputByte (ptr + 40) 8
  let g := memRead s.inputByte (ptr + 48) 8
  let h := memRead s.inputByte (ptr + 56) 8
  let cs0 := mix64 (a ^^^ pi1) (b ^^^ s.work.cs)
  let cs1 := mix64 (c ^^^ pi2) (d ^^^ s.work.cs)
  let ds0 := mix64 (e ^^^ pi3) (f ^^^ s.work.ds)
  let ds1 := mix64 (g ^^^ pi4) (h ^^^ s.work.ds)
  { s with
    work :=
      { s.work with
        cs := cs0 ^^^ cs1
        ds := ds0 ^^^ ds1
        ptr := truncAddr s.cfg (s.work.ptr + 64)
        rem := s.work.rem - 64 }
    fsm := if s.work.rem.toNat - 64 > 64 then .bulk else .fold }

/-- FOLD (41_digest_core R99): the lanes merged. -/
def foldStep (s : State) : State :=
  { s with
    work := { s.work with cs := s.work.cs ^^^ s.work.ds }
    fsm := if s.work.rem.toNat > 16 then .medium else .tail }

/-- MEDIUM (41_digest_core R100): one 16-byte block. -/
def mediumStep (s : State) : State :=
  let ptr := s.work.ptr.toNat
  let a := memRead s.inputByte ptr 8
  let b := memRead s.inputByte (ptr + 8) 8
  { s with
    work :=
      { s.work with
        cs := mix64 (a ^^^ pi1) (b ^^^ s.work.cs)
        ptr := truncAddr s.cfg (s.work.ptr + 16)
        rem := s.work.rem - 16 }
    fsm := if s.work.rem.toNat - 16 > 16 then .medium else .tail }

/-- TAIL (41_digest_core R102): the last bytes packed into two words. -/
def tailStep (s : State) : State :=
  let ab := tailValues s.inputByte s.work.ptr.toNat s.work.rem.toNat
  { s with work := { s.work with ta := ab.1, tb := ab.2 }, fsm := .fin1 }

/-- FIN1 (41_digest_core R103). -/
def fin1Step (s : State) : State :=
  { s with work := { s.work with w := mix64 (s.work.ta ^^^ pi1) (s.work.tb ^^^ s.work.cs) }, fsm := .fin2 }

/-- FIN2 (41_digest_core R104). -/
def fin2Step (s : State) : State := completeDigest (mix64 s.work.w (pi4 ^^^ s.work.slen)) s

/-- MIXO (40_mixing_primitive R91). -/
def mixoStep (s : State) : State := complete (mix64 s.work.ta s.work.tb) s

/-- The step that `fsm` names (10_state R43); in IDLE the ENGINE has none. -/
def engineEffect (s : State) : State :=
  match s.fsm with
  | .idle => s
  | .bulk => bulkStep s
  | .fold => foldStep s
  | .medium => mediumStep s
  | .tail => tailStep s
  | .fin1 => fin1Step s
  | .fin2 => fin2Step s
  | .mixo => mixoStep s

/-- The first address of a read set that the input space does not have (20_memory R50). -/
def missingAddress (s : State) : Option Fault :=
  (readSet s).find? (fun a => decide (s.spaceSize ≤ a)) |>.map Fault.outsideInputSpace

/-- Why an ENGINE step has no meaning. No reachable state has one (41_digest_core R107, R111; log 13). -/
def engineGuard (s : State) : Option Fault :=
  match s.fsm with
  | .bulk => if s.work.rem.toNat < 64 then some .absorbUnderflow else missingAddress s
  | .medium => if s.work.rem.toNat < 16 then some .absorbUnderflow else missingAddress s
  | .tail => if 16 < s.work.rem.toNat then some .noTailCase else missingAddress s
  | .idle | .fold | .fin1 | .fin2 | .mixo => none

/-- The ENGINE's move: its step, with the read set recorded (log 14). -/
def engineStep (s : State) : Host.Outcome State Fault Refusal :=
  match engineGuard s with
  | some f => .fault f
  | none => .next (recordReads (readSet s) (engineEffect s))

end Sys2Proof.Machine
end

