-- ==== Sys2Proof/Machine/Agents.lean ====
section
/-! DEFINITION. What one move of each agent does, and how the outside world's inputs become moves. -/

namespace Sys2Proof.Machine

open Sys2Proof

/-- A HOST transaction: the decoded instruction, or, for a word that is no command, the illegal-command rule
(43_host_operations R140, R143). -/
def hostTurn (e : Encoded) (s : State) : Host.Outcome State Fault Refusal :=
  match decode e with
  | .ok i => exec i s
  | .error _ => .next (illegalCommand s)

/-- The HOST changes a byte of the input space; an address outside it does not exist (20_memory R50). -/
def storeTurn (a : Nat) (b : Byte) (s : State) : Host.Outcome State Fault Refusal :=
  if a < s.spaceSize then .next (hostStore a b s) else .fault (.outsideInputSpace a)

/-- One move (20_memory R63). -/
def runMove (m : Move) (s : State) : Host.Outcome State Fault Refusal :=
  match m with
  | .engine => engineStep s
  | .host e => hostTurn e s
  | .reset => .next (resetEvent s)
  | .store a b => storeTurn a b s

/-- The move that comes next: the first pending one; with none pending the ENGINE is scheduled (70_reset R180, log 3). -/
def nextMove (s : State) : Move :=
  match s.moves with
  | [] => .engine
  | m :: _ => m

/-- The state the move acts on: the move taken off the list, and no address read yet. -/
def takeMove (s : State) : State := { s with moves := s.moves.tail, reads := [] }

/-- A transaction placed before the pending moves. -/
def placeTransaction (s : State) (e : Encoded) : State := { s with moves := .host e :: s.moves }

/-- The moves of one clock cycle (20_memory R66, 60_exceptions R157): RESET overrides; a read comes before the ENGINE
step, a write after it. -/
def cycleMoves (reset : Bool) (transaction : Option Encoded) (engine : Bool) : List Move :=
  let tick := if engine then [Move.engine] else []
  if reset then [.reset]
  else
    match transaction with
    | none => tick
    | some e =>
      match decode e with
      | .ok (.regRead _) => .host e :: tick
      | .ok .nop | .ok .hash64 | .ok .hash64Pair | .ok .mix64 | .ok .abort | .ok (.regWrite _ _) | .error _ =>
        tick ++ [.host e]

end Sys2Proof.Machine
end

