-- ==== Sys2Proof/Machine/Step.lean ====
section
/-! DEFINITION. One step of the machine: the next move of the interleaving. -/

namespace Sys2Proof.Machine

open Sys2Proof

/-- One atomic move (20_memory R63, 00_scope R14). -/
def step (s : State) : Host.Outcome State Fault Refusal := runMove (nextMove s) (takeMove s)

/-- An instruction of the opcode table, in the table's bit numbering, placed where the next step takes it (log 4, 5). -/
def State.withFetchWord (s : State) (nbits w : Nat) : State :=
  match tableWord nbits w with
  | some e => placeTransaction s e
  | none => s

end Sys2Proof.Machine
end

