-- ==== Sys2Proof/Machine/Digest.lean ====
section
/-! DEFINITION. The digest as a function, CircleHash64f itself (41_digest_core R95), and the step counts of R106. The
ENGINE's steps are in Engine.lean and do not call this file. -/

namespace Sys2Proof.Machine

open Sys2Proof

/-- The variables of a loop of R95. -/
structure Absorb where
  cs : Word
  ds : Word
  pos : Nat
  rem : Nat
  deriving DecidableEq, Repr

/-- One iteration of the bulk loop of R95: both mixes of a lane read the lane's value from before the iteration. -/
def bulkBlock (byteAt : Nat → Byte) (v : Absorb) : Absorb :=
  let word := fun k => memRead byteAt (v.pos + 8 * k) 8
  { cs := mix64 (word 0 ^^^ pi1) (word 1 ^^^ v.cs) ^^^ mix64 (word 2 ^^^ pi2) (word 3 ^^^ v.cs)
    ds := mix64 (word 4 ^^^ pi3) (word 5 ^^^ v.ds) ^^^ mix64 (word 6 ^^^ pi4) (word 7 ^^^ v.ds)
    pos := v.pos + 64
    rem := v.rem - 64 }

/-- `while rem > 64`, with fuel; `rem` iterations are always enough. -/
def bulkLoop (byteAt : Nat → Byte) : Nat → Absorb → Absorb
  | 0, v => v
  | fuel + 1, v => if v.rem > 64 then bulkLoop byteAt fuel (bulkBlock byteAt v) else v

/-- One iteration of the medium loop of R95. -/
def mediumBlock (byteAt : Nat → Byte) (v : Absorb) : Absorb :=
  { cs := mix64 (memRead byteAt v.pos 8 ^^^ pi1) (memRead byteAt (v.pos + 8) 8 ^^^ v.cs)
    ds := v.ds
    pos := v.pos + 16
    rem := v.rem - 16 }

/-- `while rem > 16`, with fuel; `rem` iterations are always enough. -/
def mediumLoop (byteAt : Nat → Byte) : Nat → Absorb → Absorb
  | 0, v => v
  | fuel + 1, v => if v.rem > 16 then mediumLoop byteAt fuel (mediumBlock byteAt v) else v

/-- The two lines of the finalization of R95: `w` and then the digest. -/
def finalize (ta tb cs slen : Word) : Word := mix64 (mix64 (ta ^^^ pi1) (tb ^^^ cs)) (pi4 ^^^ slen)

/-- R95 from the medium phase on. -/
def digestFromMedium (byteAt : Nat → Byte) (v : Absorb) (slen : Word) : Word :=
  let v := mediumLoop byteAt v.rem v
  let (ta, tb) := tailValues byteAt v.pos v.rem
  finalize ta tb v.cs slen

/-- R95 from the bulk phase on: the loop, then the fold. -/
def digestFromBulk (byteAt : Nat → Byte) (v : Absorb) (slen : Word) : Word :=
  let v := bulkLoop byteAt v.rem v
  digestFromMedium byteAt { v with cs := v.cs ^^^ v.ds } slen

/-- `hash64(D, seed)` of R95 for a byte sequence `D`. -/
def hash64 (bytes : List Byte) (seed : Word) : Word :=
  let byteAt := fun i => bytes.getD i 0
  let v : Absorb := { cs := seed ^^^ pi0, ds := seed ^^^ pi0, pos := 0, rem := bytes.length }
  let slen := BitVec.ofNat 64 bytes.length
  if bytes.length > 64 then digestFromBulk byteAt v slen else digestFromMedium byteAt v slen

/-- `hash64_pair(a, b, seed)`: one finalization (42_fixed_pair R130). -/
def hash64Pair (a b seed : Word) : Word := finalize a b (seed ^^^ pi0) 16

/-- The window bytes `D[i] = In[base + i]` for `i < n` (41_digest_core R109). -/
def windowBytes (m : Memory) (base n : Nat) : List Byte := (List.range n).map fun i => Memory.read m (base + i)

/-! ### Step counts (41_digest_core R106) -/

/-- `nb`, the BULK steps for a length. -/
def bulkCount (len : Nat) : Nat := if len > 64 then (len - 1) / 64 else 0

/-- `r1`, the bytes left after the bulk phase. -/
def afterBulk (len : Nat) : Nat := len - 64 * bulkCount len

/-- `nm`, the MEDIUM steps for a length. -/
def mediumCount (len : Nat) : Nat := if afterBulk len > 16 then (afterBulk len - 1) / 16 else 0

/-- `r2`, the bytes left for the tail. -/
def afterMedium (len : Nat) : Nat := afterBulk len - 16 * mediumCount len

/-- The ENGINE steps after the acceptance of a HASH64 of a length. -/
def hashSteps (len : Nat) : Nat := bulkCount len + (if len > 64 then 1 else 0) + mediumCount len + 3

/-- The ENGINE states that the steps of a HASH64 of a length are taken in, in order. -/
def hashTrace (len : Nat) : List Fsm :=
  List.replicate (bulkCount len) .bulk ++ (if len > 64 then [.fold] else []) ++
    List.replicate (mediumCount len) .medium ++ [.tail, .fin1, .fin2]

end Sys2Proof.Machine
end

