-- ==== Sys2Proof/Safety.lean ====
section
/-! DEFINITION. What claims are stated in: the invariant of every reachable state, what the command in progress will
write, how many ENGINE steps it still needs, and which moves leave it alone. -/

namespace Sys2Proof.Machine

open Sys2Proof

/-! ### The invariant -/

/-- The working registers of a HASH64 in progress (41_digest_core R107, R111): `ptr + rem` is the end of the window, the
window is in the input space, and `slen` is the whole length. -/
structure Window.Running (w : Window) (space : Nat) (work : Work) : Prop where
  base_le_ptr : w.base ≤ work.ptr.toNat
  ptr_add_rem : work.ptr.toNat + work.rem.toNat = w.base + w.len
  end_inside : w.base + w.len ≤ space
  slen_eq : work.slen.toNat = w.len

/-- What each ENGINE state says of `rem` and of the window (41_digest_core R107). A HASH64_PAIR passes FIN1 and FIN2 with
no window and `slen` 16 (42_fixed_pair R130). -/
def PhaseInv (space : Nat) (fsm : Fsm) (work : Work) (window : Option Window) : Prop :=
  match fsm, window with
  | .idle, none => True
  | .mixo, none => True
  | .fin1, none => work.slen = 16
  | .fin2, none => work.slen = 16
  | .bulk, some w => w.Running space work ∧ 65 ≤ work.rem.toNat
  | .fold, some w => w.Running space work ∧ 1 ≤ work.rem.toNat ∧ work.rem.toNat ≤ 64 ∧ 65 ≤ w.len
  | .medium, some w => w.Running space work ∧ 17 ≤ work.rem.toNat ∧ work.rem.toNat ≤ 64
  | .tail, some w => w.Running space work ∧ work.rem.toNat ≤ 16 ∧ (work.rem.toNat = 0 ↔ w.len = 0)
  | .fin1, some w => w.Running space work ∧ work.rem.toNat ≤ 16 ∧ (work.rem.toNat = 0 ↔ w.len = 0)
  | .fin2, some w => w.Running space work ∧ work.rem.toNat ≤ 16 ∧ (work.rem.toNat = 0 ↔ w.len = 0)
  | _, _ => False

/-- The invariant of every reachable state. -/
structure State.Inv (s : State) : Prop where
  /-- 00_scope R9 -/
  cfg_legal : s.cfg.Legal
  /-- the canonical form of the input space -/
  input_wf : Memory.wf s.input
  /-- 20_memory R50: no byte outside the input space -/
  input_inside : ∀ c ∈ s.input, c.1 < s.spaceSize
  /-- 10_state R44 -/
  busy_iff : s.status.busy = true ↔ s.fsm ≠ .idle
  /-- 10_state R23 -/
  err_iff : s.status.err = true ↔ s.status.errcode ≠ 0
  /-- 60_exceptions R152: codes 3 to 15 are never produced -/
  errcode_named : s.status.errcode.toNat ≤ 2
  /-- 60_exceptions R151: a rejection sets DONE with ERR -/
  err_done : s.status.err = true → s.status.done = true
  /-- 43_host_operations R142 -/
  busy_clean : s.status.busy = true → s.status.done = false ∧ s.status.err = false
  /-- 10_state R26: SRC holds `ADDR_W` bits -/
  src_inside : s.regs.src.toNat < s.spaceSize
  /-- 10_state R37: `ptr` holds `ADDR_W` bits -/
  ptr_inside : s.work.ptr.toNat < s.spaceSize
  /-- 41_digest_core R107 and R111 -/
  phase_inv : PhaseInv s.spaceSize s.fsm s.work s.window

/-! ### Moves -/

/-- A store names an address of the input space (20_memory R50). -/
def Move.Legal (c : Config) : Move → Prop
  | .store a _ => a < 2 ^ c.addrW
  | .engine | .host _ | .reset => True

/-- The command word that a transaction submits, if it is a write to CMD (10_state R24): header 0x12, or a command word. -/
def commandWord : Encoded → Option Word
  | .cmd64 word => some word
  | .port header data => if header = 0x12#5 then some data else none

/-- A move that the digest of a window does not notice (41_digest_core R109, 20_memory R64): any but reset, ABORT and a
change inside the window. -/
def Move.Undisturbing (base len : Nat) : Move → Prop
  | .engine => True
  | .host e => commandWord e ≠ some 0xF#64
  | .reset => False
  | .store a _ => ¬(base ≤ a ∧ a < base + len)

/-! ### The command in progress -/

/-- The loop variables of 41_digest_core R95 as the working registers hold them, `ptr` in the place of `pos` (R109). -/
def State.absorb (s : State) : Absorb :=
  { cs := s.work.cs, ds := s.work.ds, pos := s.work.ptr.toNat, rem := s.work.rem.toNat }

/-- What the command in progress will write to RESULT if its window stays as it is: R95 taken up where the ENGINE is. In
IDLE, RESULT itself. -/
def State.pendingResult (s : State) : Word :=
  match s.fsm with
  | .idle => s.regs.result
  | .bulk => digestFromBulk s.inputByte s.absorb s.work.slen
  | .fold => digestFromMedium s.inputByte { s.absorb with cs := s.work.cs ^^^ s.work.ds } s.work.slen
  | .medium | .tail => digestFromMedium s.inputByte s.absorb s.work.slen
  | .fin1 => finalize s.work.ta s.work.tb s.work.cs s.work.slen
  | .fin2 => mix64 s.work.w (pi4 ^^^ s.work.slen)
  | .mixo => mix64 s.work.ta s.work.tb

/-- How many ENGINE steps the command in progress still takes (41_digest_core R106). -/
def State.stepsLeft (s : State) : Nat :=
  let rem := s.work.rem.toNat
  match s.fsm with
  | .idle => 0
  | .bulk => hashSteps rem
  | .fold => 1 + mediumCount rem + 3
  | .medium => mediumCount rem + 3
  | .tail => 3
  | .fin1 => 2
  | .fin2 | .mixo => 1

/-- Whether the window of the HASH64 in progress has changed (20_memory R64); false when there is none. -/
def State.windowBroken (s : State) : Bool :=
  match s.window with
  | some w => !w.stable
  | none => false

end Sys2Proof.Machine
end

