-- ==== Sys2Proof/Certificates/Slice0/Obligations.lean ====
section
/-! DEFINITION. The statements for the provers. Each docstring names the rule of spec/ it formalises; "log n" is an entry of
the assumption log that a clause rests on. -/

open Sys2Proof Sys2Proof.Machine

/-! ### Encoding -/

/-- Decode and encode agree on every well-formed instruction (30_encoding R72, R75). -/
def Obligations.DecodingAnEncodingGivesTheInstruction : Prop :=
  ∀ i : Instr, i.wellFormed = true → decode (encode i) = .ok i

/-- The other direction: a word decodes to a well-formed instruction whose encoding is that word, but for the data lines of
a REG_READ, which the port does not look at (R75, log 6). -/
def Obligations.EncodingADecodingGivesTheWord : Prop :=
  ∀ (e : Encoded) (i : Instr), decode e = .ok i →
    i.wellFormed = true ∧
    (encode i = e ∨ ∃ header data, e = .port header data ∧ header.getLsbD 4 = false ∧ encode i = .port header 0)

/-- A command word is decoded only by exact match on all 64 bits (R71, R72), and each other word is illegal in one of the two
ways of R73: OP 0x4 to 0xE with MBZ zero, or MBZ not zero. -/
def Obligations.OnlyTheFiveCommandWordsDecode : Prop :=
  ∀ word : Word,
    (decode (.cmd64 word) = .ok .nop ↔ word = 0x0#64) ∧
    (decode (.cmd64 word) = .ok .hash64 ↔ word = 0x1#64) ∧
    (decode (.cmd64 word) = .ok .hash64Pair ↔ word = 0x2#64) ∧
    (decode (.cmd64 word) = .ok .mix64 ↔ word = 0x3#64) ∧
    (decode (.cmd64 word) = .ok .abort ↔ word = 0xF#64) ∧
    ((∃ r, decode (.cmd64 word) = .error r) ↔ word ∉ [0x0#64, 0x1#64, 0x2#64, 0x3#64, 0xF#64]) ∧
    (decode (.cmd64 word) = .error (.reservedOpcode word) ↔
      word.extractLsb' 4 60 = 0 ∧ 0x4#4 ≤ word.extractLsb' 0 4 ∧ word.extractLsb' 0 4 ≤ 0xE#4) ∧
    (decode (.cmd64 word) = .error (.mbzNotZero word) ↔ word.extractLsb' 4 60 ≠ 0)

/-- Every 5-bit header is a transaction: bit 4 says which, bits 3:0 select the slot (R75, R76, 10_state R21). -/
def Obligations.EveryHeaderIsATransaction : Prop :=
  ∀ (header : BitVec 5) (data : Word), ∃ slot : Slot,
    slot.wellFormed = true ∧
    decode (.port header data) = .ok (if header.getLsbD 4 then .regWrite slot data else .regRead slot) ∧
    (let idx := (header.extractLsb' 0 4).toNat
     if idx ≤ 8 then
       [Slot.id, Slot.status, Slot.cmd, Slot.seed, Slot.src, Slot.len, Slot.opa, Slot.opb, Slot.result][idx]? = some slot
     else slot = .reserved idx)

/-- Words written out from the spec's own encodings (R72; the headers of R82 and 95_test_vectors §4). -/
def Obligations.WrittenOutWordsDecode : Prop :=
  decode (.cmd64 0x0000000000000001#64) = .ok .hash64 ∧
  decode (.cmd64 0x0000000000000002#64) = .ok .hash64Pair ∧
  decode (.cmd64 0x0000000000000003#64) = .ok .mix64 ∧
  decode (.cmd64 0x000000000000000F#64) = .ok .abort ∧
  decode (.port 0b00001#5 0) = .ok (.regRead .status) ∧
  decode (.port 0b01000#5 0) = .ok (.regRead .result) ∧
  decode (.port 0b10101#5 0x41#64) = .ok (.regWrite .len 0x41#64)

/-- FSM3: eight codes for eight states (30_encoding R80). -/
def Obligations.EveryStateCodeNamesAState : Prop :=
  (∀ c : BitVec 3, (Fsm.ofCode c).code = c) ∧ (∀ f : Fsm, Fsm.ofCode f.code = f) ∧
  [Fsm.idle, Fsm.bulk, Fsm.fold, Fsm.medium, Fsm.tail, Fsm.fin1, Fsm.fin2, Fsm.mixo].map (fun f => f.code.toNat) =
    [0, 1, 2, 3, 4, 5, 6, 7]

/-- The classifier and its codes over every length (41_digest_core R96, 30_encoding R81), with the phase that follows. -/
def Obligations.ClassifierFollowsItsThresholds : Prop :=
  ∀ rem : Nat,
    (rem = 0 → (lengthClass rem).code = 0 ∧ phase rem = .tail) ∧
    (1 ≤ rem → rem ≤ 3 → (lengthClass rem).code = 1 ∧ phase rem = .tail) ∧
    (4 ≤ rem → rem ≤ 8 → (lengthClass rem).code = 2 ∧ phase rem = .tail) ∧
    (9 ≤ rem → rem ≤ 16 → (lengthClass rem).code = 3 ∧ phase rem = .tail) ∧
    (17 ≤ rem → rem ≤ 64 → (lengthClass rem).code = 4 ∧ phase rem = .medium) ∧
    (65 ≤ rem → (lengthClass rem).code = 5 ∧ phase rem = .bulk) ∧
    (lengthClass rem).code ≠ 6 ∧ (lengthClass rem).code ≠ 7

/-- On a byte-addressed bus slot i is at REG_BASE + 8i, and no other address is a slot (20_memory R61). -/
def Obligations.BusAddressesAreTheSlots : Prop :=
  (∀ (c : Config) (we : Bool) (slot : Slot) (data : Word), slot.wellFormed = true →
    busTransaction c we (c.regBase + 8 * slot.index.toNat) data = some (.port (portHeader we slot) data)) ∧
  (∀ (c : Config) (we : Bool) (addr : Nat) (data : Word),
    (busTransaction c we addr data).isSome = true ↔ ∃ i, i < 16 ∧ addr = c.regBase + 8 * i)

/-! ### A step -/

/-- A step runs the decoded transaction: the move is taken off the interleaving, no address has been read yet, and what
follows is `exec` (20_memory R63; log 3). -/
def Obligations.StepRunsTheDecodedTransaction : Prop :=
  ∀ (s : State) (e : Encoded) (i : Instr) (rest : List Move), s.moves = .host e :: rest → decode e = .ok i →
    step s = exec i { s with moves := rest, reads := [] }

/-- The word that `withFetchWord` places is what the next step runs (log 4, 5). -/
def Obligations.PlacedWordIsRunNext : Prop :=
  ∀ (s : State) (nbits w : Nat) (i : Instr), decodeTableWord nbits w = some i →
    step (s.withFetchWord nbits w) = exec i { s with reads := [] }

/-- A command word and the REG_WRITE to CMD that carries it (header 0x12) are one thing, for every 64-bit word, illegal ones
too (10_state R24; log 5). -/
def Obligations.CommandWordIsAWriteToCmd : Prop :=
  ∀ (s : State) (word : Word) (rest : List Move),
    step { s with moves := .host (.cmd64 word) :: rest } = step { s with moves := .host (.port 0x12#5 word) :: rest }

/-- The ENGINE moves when it is scheduled, and when no other move is pending (log 3); in IDLE it has no step (10_state
R43). -/
def Obligations.EngineMovesWhenScheduled : Prop :=
  (∀ (s : State) (rest : List Move), s.moves = .engine :: rest → step s = engineStep { s with moves := rest, reads := [] }) ∧
  (∀ s : State, s.moves = [] → step s = engineStep { s with reads := [] }) ∧
  (∀ s : State, s.fsm = .idle → engineStep s = .next { s with reads := [] })

/-- Every transaction completes, in any state of the ENGINE, with or without a legal command word (43_host_operations
R141). -/
def Obligations.EveryHostTransactionCompletes : Prop :=
  ∀ (s : State) (e : Encoded) (rest : List Move), s.moves = .host e :: rest →
    ∃ t, step s = .next t ∧ t.moves = rest

/-! ### The commands -/

/-- NOP (43_host_operations R138): word 0x0, nothing changes, in any state. -/
def Obligations.NopChangesNothing : Prop :=
  decode (.cmd64 0x0000000000000000#64) = .ok .nop ∧ ∀ s : State, exec .nop s = .next s

/-- ABORT (43_host_operations R139): the ENGINE is IDLE, STATUS is 0, the registers and RESULT stay; nothing is said of the
working registers. The ENGINE then reads nothing more. -/
def Obligations.AbortStopsAndClearsStatus : Prop :=
  ∀ s : State, ∃ t, exec .abort s = .next t ∧
    t.fsm = .idle ∧ t.status = { busy := false, done := false, err := false, ovr := false, errcode := 0 } ∧
    t.regs = s.regs ∧ t.window = none ∧ t.cfg = s.cfg ∧ t.input = s.input ∧ t.moves = s.moves ∧ t.rdata = s.rdata ∧
    t.reads = s.reads ∧ (∀ a, t.inputByte a = s.inputByte a) ∧ engineStep t = .next { t with reads := [] }

/-- HASH64 while idle with a window that fits: the acceptance step (41_digest_core R97; log 19 for a sum of exactly
2^`ADDR_W`). Everything not named is unchanged. The window is the model's record of 20_memory R52 (log 17). -/
def Obligations.Hash64IsAcceptedWhenTheWindowFits : Prop :=
  ∀ s : State, s.status.busy = false → s.regs.src.toNat + s.regs.len.toNat ≤ 2 ^ s.cfg.addrW →
    exec .hash64 s = .next
      { s with
        work :=
          { s.work with
            cs := s.regs.seed ^^^ 0x243F6A8885A308D3#64
            ds := s.regs.seed ^^^ 0x243F6A8885A308D3#64
            slen := s.regs.len
            rem := s.regs.len
            ptr := s.regs.src }
        status := { busy := true, done := false, err := false, ovr := false, errcode := 0 }
        fsm := if s.regs.len.toNat > 64 then .bulk else if s.regs.len.toNat > 16 then .medium else .tail
        window := some { base := s.regs.src.toNat, len := s.regs.len.toNat, stable := true } }

/-- HASH64 while idle with a window past the top of the input space: RANGE, and nothing else changes (60_exceptions R154,
R151). -/
def Obligations.Hash64IsRejectedPastTheTop : Prop :=
  ∀ s : State, s.status.busy = false → s.regs.src.toNat + s.regs.len.toNat > 2 ^ s.cfg.addrW →
    exec .hash64 s = .next
      { s with status := { busy := false, done := true, err := true, ovr := false, errcode := 2 } }

/-- HASH64_PAIR while idle: the acceptance step (42_fixed_pair R130); `ds`, `ptr`, `rem` and everything not named stay. -/
def Obligations.PairIsAcceptedWhileIdle : Prop :=
  ∀ s : State, s.status.busy = false →
    exec .hash64Pair s = .next
      { s with
        work :=
          { s.work with
            cs := s.regs.seed ^^^ 0x243F6A8885A308D3#64
            ta := s.regs.opa
            tb := s.regs.opb
            slen := 16 }
        status := { busy := true, done := false, err := false, ovr := false, errcode := 0 }
        fsm := .fin1
        window := none }

/-- MIX64 while idle: the acceptance step (40_mixing_primitive R90). -/
def Obligations.MixIsAcceptedWhileIdle : Prop :=
  ∀ s : State, s.status.busy = false →
    exec .mix64 s = .next
      { s with
        work := { s.work with ta := s.regs.opa, tb := s.regs.opb }
        status := { busy := true, done := false, err := false, ovr := false, errcode := 0 }
        fsm := .mixo
        window := none }

/-- A command word other than 0x0 and 0xF, legal or illegal, written while BUSY is dropped: OVR is set and nothing else
changes (43_host_operations R143). -/
def Obligations.CommandsWhileBusyAreDropped : Prop :=
  ∀ s : State, s.status.busy = true →
    (∀ i ∈ [Instr.hash64, Instr.hash64Pair, Instr.mix64], exec i s = .next { s with status := { s.status with ovr := true } }) ∧
    (∀ v : Word, v ≠ 0x0#64 → v ≠ 0xF#64 →
      exec (.regWrite .cmd v) s = .next { s with status := { s.status with ovr := true } })

/-- An illegal command word written while idle is rejected with ILLEGAL_CMD and changes nothing else (43_host_operations
R140, 60_exceptions R153). -/
def Obligations.IllegalWordsWhileIdleAreRejected : Prop :=
  ∀ (s : State) (v : Word), s.status.busy = false → v ∉ [0x0#64, 0x1#64, 0x2#64, 0x3#64, 0xF#64] →
    exec (.regWrite .cmd v) s = .next
      { s with status := { busy := false, done := true, err := true, ovr := false, errcode := 1 } }

/-- A REG_WRITE to CMD does what the command its word decodes to does (10_state R24, 43_host_operations R137). -/
def Obligations.WriteToCmdRunsTheCommand : Prop :=
  ∀ (s : State) (word : Word) (i : Instr), decode (.cmd64 word) = .ok i → exec (.regWrite .cmd word) s = exec i s

/-! ### The register port -/

/-- REG_WRITE to the operand registers (43_host_operations R135): the value is stored at once, in any state, and nothing
else changes; SRC keeps its low `ADDR_W` bits (10_state R26). -/
def Obligations.WritesStoreTheOperand : Prop :=
  ∀ (s : State) (v : Word),
    exec (.regWrite .seed v) s = .next { s with regs := { s.regs with seed := v } } ∧
    exec (.regWrite .len v) s = .next { s with regs := { s.regs with len := v } } ∧
    exec (.regWrite .opa v) s = .next { s with regs := { s.regs with opa := v } } ∧
    exec (.regWrite .opb v) s = .next { s with regs := { s.regs with opb := v } } ∧
    (∃ a : Word, a.toNat = v.toNat % 2 ^ s.cfg.addrW ∧ (s.cfg.addrW = 64 → a = v) ∧
      exec (.regWrite .src v) s = .next { s with regs := { s.regs with src := a } })

/-- A REG_WRITE to a read-only or reserved slot changes no state and raises no error; a REG_READ of any slot changes no
state of the block (10_state R32). What the HOST got, `rdata`, is the model's own field (log 7). -/
def Obligations.ReadOnlyAndReservedSlotsIgnoreWrites : Prop :=
  (∀ (s : State) (v : Word),
    exec (.regWrite .id v) s = .next s ∧ exec (.regWrite .status v) s = .next s ∧
    exec (.regWrite .result v) s = .next s ∧ ∀ n, exec (.regWrite (.reserved n) v) s = .next s) ∧
  (∀ (s : State) (slot : Slot), ∃ v, exec (.regRead slot) s = .next { s with rdata := some v })

/-- What a REG_READ of each slot returns (43_host_operations R136). -/
def Obligations.ReadsReturnTheSlot : Prop :=
  ∀ s : State,
    exec (.regRead .id) s = .next { s with rdata := some 0x4348363446000001#64 } ∧
    exec (.regRead .status) s = .next
      { s with
        rdata := some (BitVec.ofNat 64 (s.status.busy.toNat + 2 * s.status.done.toNat + 4 * s.status.err.toNat +
          8 * s.status.ovr.toNat + 16 * s.status.errcode.toNat)) } ∧
    exec (.regRead .cmd) s = .next { s with rdata := some 0 } ∧
    exec (.regRead .seed) s = .next { s with rdata := some s.regs.seed } ∧
    exec (.regRead .src) s = .next { s with rdata := some s.regs.src } ∧
    exec (.regRead .len) s = .next { s with rdata := some s.regs.len } ∧
    exec (.regRead .opa) s = .next { s with rdata := some s.regs.opa } ∧
    exec (.regRead .opb) s = .next { s with rdata := some s.regs.opb } ∧
    exec (.regRead .result) s = .next { s with rdata := some s.regs.result } ∧
    ∀ n, exec (.regRead (.reserved n)) s = .next { s with rdata := some 0 }

/-- The frame of every instruction: the input space, the parameters, RESULT and the rest of the interleaving stay; only a
REG_WRITE changes an operand register; only a REG_READ changes what the HOST has read; only a command changes STATUS, the
ENGINE state or a working register. -/
def Obligations.InstructionsLeaveTheRestAlone : Prop :=
  ∀ (i : Instr) (s t : State), exec i s = .next t →
    t.cfg = s.cfg ∧ t.moves = s.moves ∧ t.reads = s.reads ∧ t.regs.result = s.regs.result ∧
    (∀ a, t.inputByte a = s.inputByte a) ∧
    ((∀ slot v, i ≠ .regWrite slot v) → t.regs = s.regs) ∧
    ((∀ v, i ≠ .regWrite .seed v) → t.regs.seed = s.regs.seed) ∧
    ((∀ v, i ≠ .regWrite .src v) → t.regs.src = s.regs.src) ∧
    ((∀ v, i ≠ .regWrite .len v) → t.regs.len = s.regs.len) ∧
    ((∀ v, i ≠ .regWrite .opa v) → t.regs.opa = s.regs.opa) ∧
    ((∀ v, i ≠ .regWrite .opb v) → t.regs.opb = s.regs.opb) ∧
    ((∀ slot, i ≠ .regRead slot) → t.rdata = s.rdata) ∧
    (i ∉ [Instr.hash64, Instr.hash64Pair, Instr.mix64, Instr.abort] → (∀ v, i ≠ .regWrite .cmd v) →
      t.status = s.status ∧ t.fsm = s.fsm ∧ t.work = s.work ∧ t.window = s.window)

/-! ### The ENGINE's steps -/

/-- BULK (41_digest_core R98): both mixes of a lane read the lane's old value, with the constants pi1 to pi4 of 10_state R46,
as numbers, on bytes 0 to 63 in order. The premises are the invariant of R107 and R111. That the read set is listed in
ascending order is the model's choice (log 14). -/
def Obligations.BulkAbsorbsSixtyFourBytes : Prop :=
  ∀ s : State, s.cfg.Legal → s.fsm = .bulk → s.work.rem.toNat > 64 →
    s.work.ptr.toNat + s.work.rem.toNat ≤ 2 ^ s.cfg.addrW →
    let word := fun k => memRead s.inputByte (s.work.ptr.toNat + 8 * k) 8
    ∃ ptr rem : Word, ptr.toNat = s.work.ptr.toNat + 64 ∧ rem.toNat = s.work.rem.toNat - 64 ∧
      engineStep s = .next
        { s with
          work :=
            { s.work with
              cs :=
                mix64 (word 0 ^^^ 0x13198A2E03707344#64) (word 1 ^^^ s.work.cs) ^^^
                  mix64 (word 2 ^^^ 0xA4093822299F31D0#64) (word 3 ^^^ s.work.cs)
              ds :=
                mix64 (word 4 ^^^ 0x082EFA98EC4E6C89#64) (word 5 ^^^ s.work.ds) ^^^
                  mix64 (word 6 ^^^ 0x452821E638D01377#64) (word 7 ^^^ s.work.ds)
              ptr := ptr
              rem := rem }
          fsm := if rem.toNat > 64 then .bulk else .fold
          reads := List.range' s.work.ptr.toNat 64 }

/-- FOLD (41_digest_core R99). -/
def Obligations.FoldMergesTheLanes : Prop :=
  ∀ s : State, s.fsm = .fold →
    engineStep s = .next
      { s with
        work := { s.work with cs := s.work.cs ^^^ s.work.ds }
        fsm := if s.work.rem.toNat > 16 then .medium else .tail
        reads := [] }

/-- MEDIUM (41_digest_core R100), with pi1 of 10_state R46 as a number. The premises are the invariant of R107 and R111. That
the read set is listed in ascending order is the model's choice (log 14). -/
def Obligations.MediumAbsorbsSixteenBytes : Prop :=
  ∀ s : State, s.cfg.Legal → s.fsm = .medium → 17 ≤ s.work.rem.toNat →
    s.work.ptr.toNat + s.work.rem.toNat ≤ 2 ^ s.cfg.addrW →
    ∃ ptr rem : Word, ptr.toNat = s.work.ptr.toNat + 16 ∧ rem.toNat = s.work.rem.toNat - 16 ∧
      engineStep s = .next
        { s with
          work :=
            { s.work with
              cs :=
                mix64 (memRead s.inputByte s.work.ptr.toNat 8 ^^^ 0x13198A2E03707344#64)
                  (memRead s.inputByte (s.work.ptr.toNat + 8) 8 ^^^ s.work.cs)
              ptr := ptr
              rem := rem }
          fsm := if rem.toNat > 16 then .medium else .tail
          reads := List.range' s.work.ptr.toNat 16 }

/-- TAIL (41_digest_core R101, R102): the four cases of the tail function as numbers, and the whole tail read, neither more
nor less (20_memory R60). `ptr`, `rem` and everything not named stay. -/
def Obligations.TailPacksTheLastBytes : Prop :=
  ∀ s : State, s.fsm = .tail → s.work.rem.toNat ≤ 16 →
    s.work.ptr.toNat + s.work.rem.toNat ≤ 2 ^ s.cfg.addrW →
    let p := s.work.ptr.toNat
    let r := s.work.rem.toNat
    let byte := fun k => (s.inputByte (p + k)).toNat
    ∃ (ta tb : Word) (reads : List Nat),
      engineStep s = .next { s with work := { s.work with ta := ta, tb := tb }, fsm := .fin1, reads := reads } ∧
      (∀ a, a ∈ reads ↔ p ≤ a ∧ a < p + r) ∧
      (r = 0 → ta = 0 ∧ tb = 0) ∧
      (1 ≤ r → r ≤ 3 → ta.toNat = byte 0 * 2 ^ 16 + byte (r / 2) * 2 ^ 8 + byte (r - 1) ∧ tb = 0) ∧
      (4 ≤ r → r ≤ 8 →
        ta.toNat = ((List.range 4).map fun k => byte k * 2 ^ (8 * k)).sum ∧
        tb.toNat = ((List.range 4).map fun k => byte (r - 4 + k) * 2 ^ (8 * k)).sum) ∧
      (9 ≤ r →
        ta.toNat = ((List.range 8).map fun k => byte k * 2 ^ (8 * k)).sum ∧
        tb.toNat = ((List.range 8).map fun k => byte (r - 8 + k) * 2 ^ (8 * k)).sum)

/-- FIN1 (41_digest_core R103). -/
def Obligations.FinOneMixesTheTail : Prop :=
  ∀ s : State, s.fsm = .fin1 →
    engineStep s = .next
      { s with
        work := { s.work with w := mix64 (s.work.ta ^^^ 0x13198A2E03707344#64) (s.work.tb ^^^ s.work.cs) }
        fsm := .fin2
        reads := [] }

/-- FIN2 and completion (41_digest_core R104, R108) where the window has not changed: RESULT, BUSY, DONE and the ENGINE state
in one step; ERR, ERRCODE, OVR and everything not named stay. -/
def Obligations.FinTwoWritesTheDigest : Prop :=
  ∀ s : State, s.fsm = .fin2 → s.windowBroken = false →
    engineStep s = .next
      { s with
        regs := { s.regs with result := mix64 s.work.w (0x452821E638D01377#64 ^^^ s.work.slen) }
        status := { s.status with busy := false, done := true }
        fsm := .idle
        window := none
        reads := [] }

/-- MIXO and completion (40_mixing_primitive R91, 41_digest_core R108). -/
def Obligations.MixoWritesTheProduct : Prop :=
  ∀ s : State, s.fsm = .mixo →
    engineStep s = .next
      { s with
        regs := { s.regs with result := mix64 s.work.ta s.work.tb }
        status := { s.status with busy := false, done := true }
        fsm := .idle
        window := none
        reads := [] }

/-- FIN2 of a HASH64 whose window changed (20_memory R64): it completes with the same STATUS, RESULT being any value. That
the value is the next free one is the model's (log 10); nothing is known of it. -/
def Obligations.BrokenWindowStillCompletes : Prop :=
  ∀ s : State, s.fsm = .fin2 → s.windowBroken = true →
    ∃ v : Word, engineStep s = .next
      { s with
        regs := { s.regs with result := v }
        status := { s.status with busy := false, done := true }
        fsm := .idle
        window := none
        reads := []
        draws := s.draws + 1 }

/-- A byte of the input space changed by the HOST: that byte alone, and the window is broken exactly when the byte is in it
and takes a new value (20_memory R52, R64; log 10). -/
def Obligations.HostStoreChangesOneByte : Prop :=
  ∀ (s : State) (a : Nat) (b : Byte) (rest : List Move), s.moves = .store a b :: rest → a < 2 ^ s.cfg.addrW →
    Memory.wf s.input →
    ∃ t, step s = .next t ∧ t.cfg = s.cfg ∧ t.status = s.status ∧ t.regs = s.regs ∧ t.fsm = s.fsm ∧ t.work = s.work ∧
      t.moves = rest ∧ t.rdata = s.rdata ∧
      (∀ x, t.inputByte x = if x = a then b else s.inputByte x) ∧
      (t.windowBroken = true ↔
        s.windowBroken = true ∨
        ∃ w, s.window = some w ∧ w.base ≤ a ∧ a < w.base + w.len ∧ s.inputByte a ≠ b)

/-! ### The mixer and MemRead -/

/-- `mix64` over 128-bit words (40_mixing_primitive R85): the upper half of the exact product XOR the lower half. -/
def Obligations.MixerFoldsTheFullProduct : Prop :=
  ∀ a b : Word,
    let p : BitVec 128 := a.setWidth 128 * b.setWidth 128
    mix64 a b = p.extractLsb' 64 64 ^^^ p.extractLsb' 0 64

/-- The laws of the mixer (40_mixing_primitive R89): commutative, zero, one, powers of two, maximum, not associative, and a
MEDIUM step whose second operand is 0 leaves `cs` 0. -/
def Obligations.MixerObeysItsLaws : Prop :=
  (∀ a b : Word, mix64 a b = mix64 b a) ∧
  (∀ a : Word, mix64 0 a = 0 ∧ mix64 a 0 = 0) ∧
  (∀ a : Word, mix64 1 a = a) ∧
  (∀ (a : Word) (k : Nat), k ≤ 63 → mix64 a (BitVec.twoPow 64 k) = a.rotateLeft k) ∧
  mix64 0xFFFFFFFFFFFFFFFF#64 0xFFFFFFFFFFFFFFFF#64 = 0xFFFFFFFFFFFFFFFF#64 ∧
  (∃ a b c : Word, mix64 (mix64 a b) c ≠ mix64 a (mix64 b c)) ∧
  (∀ s : State, memRead s.inputByte (s.work.ptr.toNat + 8) 8 = s.work.cs → (mediumStep s).work.cs = 0)

/-- MemRead is the little-endian sum of R53, zero-extended, and a 4-byte read is the low half of an 8-byte read at the same
address (20_memory R53, R54). -/
def Obligations.MemReadIsLittleEndian : Prop :=
  ∀ (byteAt : Nat → Byte) (addr : Nat),
    (∀ n ∈ [1, 4, 8],
      (memRead byteAt addr n).toNat = ((List.range n).map fun k => (byteAt (addr + k)).toNat * 2 ^ (8 * k)).sum) ∧
    memRead byteAt addr 4 = ((memRead byteAt addr 8).setWidth 32).setWidth 64

/-! ### Reset -/

/-- The state after reset (10_state R48): ID reads its constant, every other slot reads 0, the ENGINE is IDLE. -/
def Obligations.ResetLeavesTheResetValues : Prop :=
  State.reset.fsm = .idle ∧
  State.reset.status = { busy := false, done := false, err := false, ovr := false, errcode := 0 } ∧
  exec (.regRead .id) State.reset = .next { State.reset with rdata := some 0x4348363446000001#64 } ∧
  ∀ slot : Slot, slot ≠ .id → exec (.regRead slot) State.reset = .next { State.reset with rdata := some 0 }

/-- The reset event at any point of a run (70_reset R167): the ENGINE is IDLE, STATUS and the registers are 0, ID is as it
was; nothing is said of the working registers. That a reset leaves what the HOST has read (log 7) and the input space
(log 11) is the model's choice, because neither is the block's; so it is with the parameters (log 1). -/
def Obligations.ResetEventClearsTheBlock : Prop :=
  ∀ (s : State) (rest : List Move), s.moves = .reset :: rest →
    ∃ t, step s = .next t ∧ t.fsm = .idle ∧
      t.status = { busy := false, done := false, err := false, ovr := false, errcode := 0 } ∧
      t.regs = { seed := 0, src := 0, len := 0, opa := 0, opb := 0, result := 0 } ∧ t.window = none ∧
      readSlot .id t = 0x4348363446000001#64 ∧
      t.cfg = s.cfg ∧ t.input = s.input ∧ t.moves = rest ∧ t.rdata = s.rdata ∧ t.reads = []

/-- The invariant holds after reset. -/
def Obligations.ResetMeetsTheInvariant : Prop := State.reset.Inv

/-! ### Whole-machine rules -/

/-- Every step keeps the invariant: BUSY exactly when the ENGINE is not IDLE (10_state R44), the bounds of `rem`, `ptr` and
`slen` in each ENGINE state (41_digest_core R107, R111), ERR exactly when ERRCODE is not 0 (10_state R23), SRC in its width
(R26), the input space in canonical form. -/
def Obligations.EveryStepKeepsTheInvariant : Prop :=
  ∀ s t : State, s.Inv → step s = .next t → t.Inv

/-- No reachable state stops: every move but a store to an address that does not exist gives a next state (60_exceptions
R150, 43_host_operations R141). -/
def Obligations.NoReachableStepStops : Prop :=
  ∀ s : State, s.Inv → (nextMove s).Legal s.cfg → ∃ t, step s = .next t

/-- STATUS never reads with BUSY and DONE together, nor with ERR and BUSY (43_host_operations R142); bits 63:8 read 0. -/
def Obligations.StatusNeverReadsBusyWithDone : Prop :=
  ∀ s : State, s.Inv → ∃ v : Word, exec (.regRead .status) s = .next { s with rdata := some v } ∧
    ¬(v.getLsbD 0 = true ∧ v.getLsbD 1 = true) ∧ ¬(v.getLsbD 2 = true ∧ v.getLsbD 0 = true) ∧
    (v.getLsbD 2 = true ↔ v.extractLsb' 4 4 ≠ 0) ∧ v.extractLsb' 8 56 = 0

/-- Every address that a step reads is in the window of the HASH64 in progress, while BUSY (20_memory R56, R58). -/
def Obligations.ReadsStayInTheWindow : Prop :=
  ∀ s t : State, s.Inv → step s = .next t → ∀ a ∈ t.reads,
    s.status.busy = true ∧ ∃ w, s.window = some w ∧ w.base ≤ a ∧ a < w.base + w.len ∧ a < 2 ^ s.cfg.addrW

/-- The read set of a step is the table of 20_memory R55: only the ENGINE reads, and a transaction, an acceptance among them,
reads nothing. That the model lists the set in ascending order is its own choice (log 14). -/
def Obligations.ReadSetsAreTheTable : Prop :=
  ∀ s t : State, step s = .next t →
    let p := s.work.ptr.toNat
    let r := s.work.rem.toNat
    t.reads.Pairwise (· < ·) ∧
    ∀ a, a ∈ t.reads ↔
      nextMove s = .engine ∧
      ((s.fsm = .bulk ∧ p ≤ a ∧ a ≤ p + 63) ∨
       (s.fsm = .medium ∧ p ≤ a ∧ a ≤ p + 15) ∨
       (s.fsm = .tail ∧ 1 ≤ r ∧ r ≤ 3 ∧ (a = p ∨ a = p + r / 2 ∨ a = p + r - 1)) ∨
       (s.fsm = .tail ∧ 4 ≤ r ∧ r ≤ 8 ∧ ((p ≤ a ∧ a ≤ p + 3) ∨ (p + r - 4 ≤ a ∧ a ≤ p + r - 1))) ∨
       (s.fsm = .tail ∧ 9 ≤ r ∧ r ≤ 16 ∧ ((p ≤ a ∧ a ≤ p + 7) ∨ (p + r - 8 ≤ a ∧ a ≤ p + r - 1))))

/-- An ENGINE step uses no byte outside its read set: over any input space that agrees there it does the same
(20_memory R55). -/
def Obligations.StepsUseOnlyTheirReadSet : Prop :=
  ∀ (s t : State) (m : Memory), engineStep s = .next t → (∀ a ∈ t.reads, Memory.read m a = s.inputByte a) →
    engineStep { s with input := m } = .next { t with input := m }

/-- The block never writes the input space (20_memory R57): only the HOST's own stores change it. -/
def Obligations.TheBlockNeverWritesTheInput : Prop :=
  ∀ s t : State, step s = .next t → (∀ a b, nextMove s ≠ .store a b) →
    t.input = s.input ∧ ∀ a, t.inputByte a = s.inputByte a

/-- A step changes RESULT only if it is a completion, which is the step that sets DONE and clears BUSY (10_state R30,
20_memory R65), or a reset (70_reset R167; its value then is the matter of `ResetEventClearsTheBlock`). -/
def Obligations.OnlyCompletionWritesResult : Prop :=
  ∀ s t : State, step s = .next t → t.regs.result ≠ s.regs.result →
    nextMove s = .reset ∨
    (nextMove s = .engine ∧ (s.fsm = .fin2 ∨ s.fsm = .mixo) ∧ t.status.done = true ∧ t.status.busy = false ∧ t.fsm = .idle)

/-- A REG_WRITE to a slot other than CMD and an ENGINE step may be exchanged: the command in progress does not notice it, and
the register is updated at once (10_state R33, 70_reset R171). -/
def Obligations.OperandWritesDoNotDisturbTheEngine : Prop :=
  ∀ (s t : State) (slot : Slot) (v : Word), slot ≠ .cmd → engineStep s = .next t →
    ∃ s' t', exec (.regWrite slot v) s = .next s' ∧ engineStep s' = .next t' ∧ exec (.regWrite slot v) t = .next t'

/-- The ENGINE's transitions are the table of 41_digest_core R105, with MIXO (40_mixing_primitive R91) and the acceptances of
HASH64_PAIR and MIX64; no other move changes the ENGINE state but ABORT and reset, which lead to IDLE. -/
def Obligations.TransitionsAreTheTable : Prop :=
  ∀ s t : State, step s = .next t →
    (nextMove s = .engine →
      t.fsm =
        match s.fsm with
        | .idle => .idle
        | .bulk => if t.work.rem.toNat > 64 then .bulk else .fold
        | .fold => if t.work.rem.toNat > 16 then .medium else .tail
        | .medium => if t.work.rem.toNat > 16 then .medium else .tail
        | .tail => .fin1
        | .fin1 => .fin2
        | .fin2 => .idle
        | .mixo => .idle) ∧
    (nextMove s ≠ .engine → t.fsm ≠ s.fsm →
      (t.fsm = .idle ∧ nextMove s = .reset) ∨
      ∃ e, nextMove s = .host e ∧
        ((commandWord e = some 0xF#64 ∧ t.fsm = .idle) ∨
         (commandWord e = some 0x1#64 ∧ s.status.busy = false ∧
          t.fsm = if s.regs.len.toNat > 64 then .bulk else if s.regs.len.toNat > 16 then .medium else .tail) ∨
         (commandWord e = some 0x2#64 ∧ s.status.busy = false ∧ t.fsm = .fin1) ∨
         (commandWord e = some 0x3#64 ∧ s.status.busy = false ∧ t.fsm = .mixo)))

/-- What can change STATUS: completion, reset, or a command other than NOP, never a read or an operand write (60_exceptions
R156, R159). While BUSY a command other than ABORT sets OVR alone, and DONE falls only at an acceptance, ABORT or reset. -/
def Obligations.StatusChangesOnlyByCommandCompletionOrReset : Prop :=
  ∀ s t : State, step s = .next t →
    (t.status ≠ s.status →
      nextMove s = .reset ∨ (nextMove s = .engine ∧ (s.fsm = .fin2 ∨ s.fsm = .mixo)) ∨
      ∃ e v, nextMove s = .host e ∧ commandWord e = some v ∧ v ≠ 0x0#64) ∧
    (∀ e, nextMove s = .host e → s.status.busy = true → commandWord e ≠ some 0xF#64 →
      t.status = s.status ∨ t.status = { s.status with ovr := true }) ∧
    (s.doneOut = true → t.doneOut = false →
      nextMove s = .reset ∨ (∃ e, nextMove s = .host e ∧ commandWord e = some 0xF#64) ∨ t.busyOut = true)

/-- One clock cycle (20_memory R66), as the list of moves that log 15 puts it in. A read returns the values from before the
cycle's ENGINE step, whatever that step is, and the step does not notice it. A write, whatever the step and whatever is
written, an illegal command word too, acts on the state that the ENGINE step leaves. So an ABORT written in the cycle of a
completion, FIN2 or MIXO, leaves the new RESULT and STATUS 0 (43_host_operations R139). RESET overrides (60_exceptions
R157). -/
def Obligations.ReadsComeBeforeAndWritesAfterTheStep : Prop :=
  (∀ (s u : State) (e : Encoded) (slot : Slot) (rest : List Move), decode e = .ok (.regRead slot) →
    s.moves = cycleMoves false (some e) true ++ rest → engineStep { s with moves := rest, reads := [] } = .next u →
    Sys2Proof.core.run 2 s = .next { u with rdata := some (readSlot slot s) }) ∧
  (∀ (s u : State) (e : Encoded) (rest : List Move), (∀ slot, decode e ≠ .ok (.regRead slot)) →
    s.moves = cycleMoves false (some e) true ++ rest → engineStep { s with moves := rest, reads := [] } = .next u →
    Sys2Proof.core.run 2 s = step { u with moves := .host e :: rest }) ∧
  (∀ (s : State) (rest : List Move), s.fsm = .fin2 ∨ s.fsm = .mixo →
    s.moves = cycleMoves false (some (encode .abort)) true ++ rest →
    ∃ u t, engineStep { s with moves := rest, reads := [] } = .next u ∧ Sys2Proof.core.run 2 s = .next t ∧
      t.regs = u.regs ∧ t.fsm = .idle ∧ t.moves = rest ∧
      t.status = { busy := false, done := false, err := false, ovr := false, errcode := 0 } ∧
      (s.fsm = .mixo → t.regs.result = mix64 s.work.ta s.work.tb) ∧
      (s.fsm = .fin2 → s.windowBroken = false →
        t.regs.result = mix64 s.work.w (0x452821E638D01377#64 ^^^ s.work.slen))) ∧
  (∀ (e : Option Encoded) (engine : Bool), cycleMoves true e engine = [.reset])

/-! ### Runs of a command -/

/-- Every accepted command completes (41_digest_core R106, 70_reset R180): an ENGINE step takes the count of steps left down
by one and the command is over exactly when the count is 0; no other move that leaves the command running changes it. -/
def Obligations.EveryEngineStepCountsDown : Prop :=
  ∀ s t : State, s.Inv → s.status.busy = true → step s = .next t →
    (nextMove s = .engine → t.stepsLeft + 1 = s.stepsLeft ∧ (t.status.busy = false ↔ t.stepsLeft = 0)) ∧
    (nextMove s ≠ .engine → t.status.busy = true → t.stepsLeft = s.stepsLeft)

/-- A HASH64 with no other move pending, so that the ENGINE is scheduled (log 3), takes exactly the ENGINE steps of
41_digest_core R106: `nb` BULK, a FOLD if the length is over 64, `nm` MEDIUM, TAIL, FIN1, FIN2, and then IDLE. A window that
ends at 2^`ADDR_W` exactly is accepted (log 19). -/
def Obligations.Hash64TakesItsStepsInOrder : Prop :=
  ∀ s : State, s.cfg.Legal → s.status.busy = false → s.regs.src.toNat + s.regs.len.toNat ≤ 2 ^ s.cfg.addrW →
    s.moves = [.host (.cmd64 0x1#64)] →
    let len := s.regs.len.toNat
    (∀ k, k ≤ hashSteps len → ∃ u, Sys2Proof.core.run (k + 1) s = .next u ∧ u.fsm = (hashTrace len).getD k .idle) ∧
    (hashTrace len).length = hashSteps len ∧ afterMedium len ≤ 16 ∧ (afterMedium len = 0 ↔ len = 0)

/-- A HASH64 with no other move pending, so that the ENGINE is scheduled (log 3): after its steps RESULT is the digest of the
window's bytes under the seed, STATUS is 0x2, and everything else the HOST can read is as it was (41_digest_core R106, R109).
A window that ends at 2^`ADDR_W` exactly is accepted (log 19). -/
def Obligations.Hash64ComputesTheDigest : Prop :=
  ∀ s : State, s.cfg.Legal → s.status.busy = false → s.regs.src.toNat + s.regs.len.toNat ≤ 2 ^ s.cfg.addrW →
    s.moves = [.host (.cmd64 0x1#64)] →
    ∃ t, Sys2Proof.core.run (hashSteps s.regs.len.toNat + 1) s = .next t ∧
      t.regs =
        { s.regs with
          result := hash64 (windowBytes s.input s.regs.src.toNat s.regs.len.toNat) s.regs.seed } ∧
      t.status = { busy := false, done := true, err := false, ovr := false, errcode := 0 } ∧ t.fsm = .idle

/-- The digest of a HASH64 in every interleaving (41_digest_core R109, R112): whatever transactions, dropped commands and
stores outside the window come between its steps, when BUSY falls RESULT is the digest of the window's bytes at acceptance,
with DONE set and ERR clear. When the moves run out the ENGINE is scheduled (log 3), and a window that ends at 2^`ADDR_W`
exactly is accepted (log 19). -/
def Obligations.EveryInterleavingGivesTheDigest : Prop :=
  ∀ (s : State) (e : Encoded) (rest : List Move), s.Inv → s.status.busy = false →
    s.regs.src.toNat + s.regs.len.toNat ≤ 2 ^ s.cfg.addrW →
    s.moves = .host e :: rest → commandWord e = some 0x1#64 →
    (∀ m ∈ rest, m.Undisturbing s.regs.src.toNat s.regs.len.toNat) →
    ∀ (n : Nat) (t : State),
      (∀ k, 1 ≤ k → k ≤ n → ∃ u, Sys2Proof.core.run k s = .next u ∧ u.status.busy = true) →
      Sys2Proof.core.run (n + 1) s = .next t → t.status.busy = false →
      t.regs.result = hash64 (windowBytes s.input s.regs.src.toNat s.regs.len.toNat) s.regs.seed ∧
      t.status.done = true ∧ t.status.err = false

/-- Every byte of the window is read by some step of its HASH64 (20_memory R60), run with no other move pending (log 3). A
window that ends at 2^`ADDR_W` exactly is accepted (log 19). -/
def Obligations.EveryWindowByteIsRead : Prop :=
  ∀ s : State, s.cfg.Legal → s.status.busy = false → s.regs.src.toNat + s.regs.len.toNat ≤ 2 ^ s.cfg.addrW →
    s.moves = [.host (.cmd64 0x1#64)] →
    ∀ i, i < s.regs.len.toNat →
      ∃ k u, k < hashSteps s.regs.len.toNat ∧ Sys2Proof.core.run (k + 2) s = .next u ∧ s.regs.src.toNat + i ∈ u.reads

/-- Pair equivalence (42_fixed_pair R131): HASH64_PAIR gives the digest of the 16 bytes of its words, least significant
first, in two ENGINE steps; and a HASH64 over a window that holds those bytes gives the same RESULT. With no other move
pending the ENGINE is scheduled (log 3), and a window that ends at 2^`ADDR_W` exactly is accepted (log 19). -/
def Obligations.PairEqualsTheDigestOfItsBytes : Prop :=
  ∀ s : State, s.status.busy = false → s.moves = [.host (.cmd64 0x2#64)] →
    ∃ t, Sys2Proof.core.run 3 s = .next t ∧
      t.regs = { s.regs with result := hash64 (wordBytes s.regs.opa ++ wordBytes s.regs.opb) s.regs.seed } ∧
      t.status = { busy := false, done := true, err := false, ovr := false, errcode := 0 } ∧ t.fsm = .idle ∧
      ∀ u : State, u.cfg.Legal → u.status.busy = false → u.moves = [.host (.cmd64 0x1#64)] → u.regs.len = 16 →
        u.regs.src.toNat + 16 ≤ 2 ^ u.cfg.addrW → u.regs.seed = s.regs.seed →
        windowBytes u.input u.regs.src.toNat 16 = wordBytes s.regs.opa ++ wordBytes s.regs.opb →
        ∃ v, Sys2Proof.core.run 4 u = .next v ∧ v.regs.result = t.regs.result

/-- MIX64 from command to completion (40_mixing_primitive R90, R91), with no other move pending (log 3): one ENGINE step,
RESULT the mixer's value over OPA and OPB as they were at acceptance. -/
def Obligations.MixCommandGivesTheMixerValue : Prop :=
  ∀ s : State, s.status.busy = false → s.moves = [.host (.cmd64 0x3#64)] →
    ∃ t, Sys2Proof.core.run 2 s = .next t ∧
      t.regs = { s.regs with result := mix64 s.regs.opa s.regs.opb } ∧
      t.status = { busy := false, done := true, err := false, ovr := false, errcode := 0 } ∧ t.fsm = .idle ∧
      t.input = s.input
end

