-- ==== Sys2Proof/Laws/Memory.lean ====
section
/-! SUPPORT. The input space: a read after a write, and the canonical form, which every operation keeps. -/

namespace Sys2Proof.Machine

open Sys2Proof

/-- A read of an address below every listed one. -/
theorem Memory.read_of_lt (m : Memory) (a : Nat) (h : ∀ c ∈ m, a < c.1) : Memory.read m a = blankByte := by
  induction m with
  | nil => rfl
  | cons c rest ih =>
    have hc : a < c.1 := h c (by simp)
    obtain ⟨k, b⟩ := c
    rw [Memory.read, if_neg (by simp at hc; omega)]
    exact ih fun c hc => h c (List.mem_cons_of_mem _ hc)

/-- What a list holds after a write: the new cell, or a cell that was there. -/
theorem Memory.mem_write (m : Memory) (a : Nat) (b : Byte) (c : Host.Cell) (h : c ∈ Memory.write m a b) :
    (c = (a, b) ∧ b ≠ blankByte) ∨ c ∈ m := by
  induction m with
  | nil =>
    by_cases hb : b = blankByte
    · simp [Memory.write, hb] at h
    · simp [Memory.write, hb] at h
      exact .inl ⟨h, hb⟩
  | cons d rest ih =>
    obtain ⟨k, e⟩ := d
    rw [Memory.write] at h
    split at h
    · split at h
      · exact .inr h
      · rename_i hb
        rcases List.mem_cons.1 h with h | h
        · exact .inl ⟨h, hb⟩
        · exact .inr h
    · split at h
      · split at h
        · exact .inr (List.mem_cons_of_mem _ h)
        · rename_i hb
          rcases List.mem_cons.1 h with h | h
          · exact .inl ⟨h, hb⟩
          · exact .inr (List.mem_cons_of_mem _ h)
      · rcases List.mem_cons.1 h with h | h
        · exact .inr (h ▸ List.mem_cons_self)
        · exact (ih h).imp id (List.mem_cons_of_mem _)

/-- A write keeps the canonical form. -/
theorem Memory.write_wf (m : Memory) (a : Nat) (b : Byte) (h : Memory.wf m) : Memory.wf (Memory.write m a b) := by
  refine ⟨?_, fun c hc => ?_⟩
  · induction m with
    | nil => by_cases hb : b = blankByte <;> simp [Memory.write, hb]
    | cons d rest ih =>
      obtain ⟨k, e⟩ := d
      obtain ⟨hsort, hne⟩ := h
      obtain ⟨hk, hrest⟩ := List.pairwise_cons.1 hsort
      rw [Memory.write]
      split
      · split
        · exact hsort
        · refine List.pairwise_cons.2 ⟨fun c hc => ?_, hsort⟩
          rcases List.mem_cons.1 hc with rfl | hc
          · assumption
          · have := hk c hc
            simp only at *
            omega
      · split
        · split
          · exact hrest
          · subst a
            exact List.pairwise_cons.2 ⟨hk, hrest⟩
        · refine List.pairwise_cons.2 ⟨fun c hc => ?_, ih ⟨hrest, fun c hc => hne c (List.mem_cons_of_mem _ hc)⟩⟩
          rcases Memory.mem_write rest a b c hc with ⟨rfl, _⟩ | hc
          · simp only
            omega
          · exact hk c hc
  · rcases Memory.mem_write m a b c hc with ⟨rfl, hb⟩ | hc
    · exact hb
    · exact h.2 c hc

/-- A read after a write: the byte written at its own address, every other byte as before. -/
theorem Memory.read_write (m : Memory) (a : Nat) (b : Byte) (x : Nat) (h : Memory.wf m) :
    Memory.read (Memory.write m a b) x = if x = a then b else Memory.read m x := by
  induction m with
  | nil =>
    by_cases hb : b = blankByte
    · by_cases hx : x = a <;> simp [Memory.write, Memory.read, hb, hx]
    · by_cases hx : x = a
      · simp [Memory.write, Memory.read, hb, hx]
      · simp [Memory.write, Memory.read, hb, hx, Ne.symm hx]
  | cons d rest ih =>
    obtain ⟨k, e⟩ := d
    obtain ⟨hsort, hne⟩ := h
    obtain ⟨hk, hrest⟩ := List.pairwise_cons.1 hsort
    have ih := ih ⟨hrest, fun c hc => hne c (List.mem_cons_of_mem _ hc)⟩
    rw [Memory.write]
    split
    · rename_i hlt
      have hblank : Memory.read ((k, e) :: rest) a = blankByte := by
        refine Memory.read_of_lt _ a fun c hc => ?_
        rcases List.mem_cons.1 hc with rfl | hc
        · exact hlt
        · exact lt_trans hlt (hk c hc)
      split
      · by_cases hx : x = a
        · simp_all
        · simp [hx]
      · by_cases hx : x = a
        · simp [Memory.read, hx]
        · rw [Memory.read, if_neg (fun h => hx h.symm), if_neg hx]
    · split
      · subst a
        have hblank : Memory.read rest k = blankByte := Memory.read_of_lt _ k fun c hc => hk c hc
        split
        · by_cases hx : x = k
          · simp_all
          · simp [Memory.read, hx, Ne.symm hx]
        · by_cases hx : x = k
          · simp [Memory.read, hx]
          · simp [Memory.read, hx, Ne.symm hx]
      · by_cases hx : k = x
        · have : x ≠ a := by omega
          simp [Memory.read, hx, this]
        · simp [Memory.read, hx, ih]

/-- Every byte but the changed one reads as before a host store. -/
theorem hostStore_inputByte (s : State) (a : Nat) (b : Byte) (x : Nat) (h : Memory.wf s.input) :
    (hostStore a b s).inputByte x = if x = a then b else s.inputByte x :=
  Memory.read_write s.input a b x h

/-- A store inside the input space lists no address outside it. -/
theorem Memory.write_inside (m : Memory) (a : Nat) (b : Byte) (n : Nat) (ha : a < n) (h : ∀ c ∈ m, c.1 < n) :
    ∀ c ∈ Memory.write m a b, c.1 < n := by
  intro c hc
  rcases Memory.mem_write m a b c hc with ⟨rfl, _⟩ | hc
  · exact ha
  · exact h c hc

end Sys2Proof.Machine
end

