-- ==== Sys2Proof/Laws/State.lean ====
section
/-! SUPPORT. What each shared operation leaves in each field of the state, so that no later proof unfolds an update. -/

namespace Sys2Proof.Machine

open Sys2Proof

variable (s : State)

/-! ### hostStore -/

@[simp] theorem hostStore_cfg (a : Nat) (b : Byte) : (hostStore a b s).cfg = s.cfg := rfl
@[simp] theorem hostStore_status (a : Nat) (b : Byte) : (hostStore a b s).status = s.status := rfl
@[simp] theorem hostStore_regs (a : Nat) (b : Byte) : (hostStore a b s).regs = s.regs := rfl
@[simp] theorem hostStore_fsm (a : Nat) (b : Byte) : (hostStore a b s).fsm = s.fsm := rfl
@[simp] theorem hostStore_work (a : Nat) (b : Byte) : (hostStore a b s).work = s.work := rfl
@[simp] theorem hostStore_window (a : Nat) (b : Byte) : (hostStore a b s).window = s.window.map fun w =>
      if w.contains a && s.inputByte a ≠ b then { w with stable := false } else w := rfl
@[simp] theorem hostStore_input (a : Nat) (b : Byte) : (hostStore a b s).input = Memory.write s.input a b := rfl
@[simp] theorem hostStore_moves (a : Nat) (b : Byte) : (hostStore a b s).moves = s.moves := rfl
@[simp] theorem hostStore_rdata (a : Nat) (b : Byte) : (hostStore a b s).rdata = s.rdata := rfl
@[simp] theorem hostStore_reads (a : Nat) (b : Byte) : (hostStore a b s).reads = s.reads := rfl
@[simp] theorem hostStore_draws (a : Nat) (b : Byte) : (hostStore a b s).draws = s.draws := rfl

/-! ### recordReads -/

@[simp] theorem recordReads_cfg (addrs : List Nat) : (recordReads addrs s).cfg = s.cfg := rfl
@[simp] theorem recordReads_status (addrs : List Nat) : (recordReads addrs s).status = s.status := rfl
@[simp] theorem recordReads_regs (addrs : List Nat) : (recordReads addrs s).regs = s.regs := rfl
@[simp] theorem recordReads_fsm (addrs : List Nat) : (recordReads addrs s).fsm = s.fsm := rfl
@[simp] theorem recordReads_work (addrs : List Nat) : (recordReads addrs s).work = s.work := rfl
@[simp] theorem recordReads_window (addrs : List Nat) : (recordReads addrs s).window = s.window := rfl
@[simp] theorem recordReads_input (addrs : List Nat) : (recordReads addrs s).input = s.input := rfl
@[simp] theorem recordReads_moves (addrs : List Nat) : (recordReads addrs s).moves = s.moves := rfl
@[simp] theorem recordReads_rdata (addrs : List Nat) : (recordReads addrs s).rdata = s.rdata := rfl
@[simp] theorem recordReads_reads (addrs : List Nat) : (recordReads addrs s).reads = addrs := rfl
@[simp] theorem recordReads_draws (addrs : List Nat) : (recordReads addrs s).draws = s.draws := rfl

/-! ### forgetWork -/

@[simp] theorem forgetWork_cfg : (forgetWork s).cfg = s.cfg := rfl
@[simp] theorem forgetWork_status : (forgetWork s).status = s.status := rfl
@[simp] theorem forgetWork_regs : (forgetWork s).regs = s.regs := rfl
@[simp] theorem forgetWork_fsm : (forgetWork s).fsm = s.fsm := rfl
@[simp] theorem forgetWork_work : (forgetWork s).work = freeWork s.cfg s.draws := rfl
@[simp] theorem forgetWork_window : (forgetWork s).window = s.window := rfl
@[simp] theorem forgetWork_input : (forgetWork s).input = s.input := rfl
@[simp] theorem forgetWork_moves : (forgetWork s).moves = s.moves := rfl
@[simp] theorem forgetWork_rdata : (forgetWork s).rdata = s.rdata := rfl
@[simp] theorem forgetWork_reads : (forgetWork s).reads = s.reads := rfl
@[simp] theorem forgetWork_draws : (forgetWork s).draws = s.draws + 8 := rfl

/-! ### raiseCmdError -/

@[simp] theorem raiseCmdError_cfg (cause : CmdError) : (raiseCmdError cause s).cfg = s.cfg := rfl
@[simp] theorem raiseCmdError_status (cause : CmdError) : (raiseCmdError cause s).status = s.status.rejected cause := rfl
@[simp] theorem raiseCmdError_regs (cause : CmdError) : (raiseCmdError cause s).regs = s.regs := rfl
@[simp] theorem raiseCmdError_fsm (cause : CmdError) : (raiseCmdError cause s).fsm = s.fsm := rfl
@[simp] theorem raiseCmdError_work (cause : CmdError) : (raiseCmdError cause s).work = s.work := rfl
@[simp] theorem raiseCmdError_window (cause : CmdError) : (raiseCmdError cause s).window = s.window := rfl
@[simp] theorem raiseCmdError_input (cause : CmdError) : (raiseCmdError cause s).input = s.input := rfl
@[simp] theorem raiseCmdError_moves (cause : CmdError) : (raiseCmdError cause s).moves = s.moves := rfl
@[simp] theorem raiseCmdError_rdata (cause : CmdError) : (raiseCmdError cause s).rdata = s.rdata := rfl
@[simp] theorem raiseCmdError_reads (cause : CmdError) : (raiseCmdError cause s).reads = s.reads := rfl
@[simp] theorem raiseCmdError_draws (cause : CmdError) : (raiseCmdError cause s).draws = s.draws := rfl

/-! ### dropCommand -/

@[simp] theorem dropCommand_cfg : (dropCommand s).cfg = s.cfg := rfl
@[simp] theorem dropCommand_status : (dropCommand s).status = s.status.dropped := rfl
@[simp] theorem dropCommand_regs : (dropCommand s).regs = s.regs := rfl
@[simp] theorem dropCommand_fsm : (dropCommand s).fsm = s.fsm := rfl
@[simp] theorem dropCommand_work : (dropCommand s).work = s.work := rfl
@[simp] theorem dropCommand_window : (dropCommand s).window = s.window := rfl
@[simp] theorem dropCommand_input : (dropCommand s).input = s.input := rfl
@[simp] theorem dropCommand_moves : (dropCommand s).moves = s.moves := rfl
@[simp] theorem dropCommand_rdata : (dropCommand s).rdata = s.rdata := rfl
@[simp] theorem dropCommand_reads : (dropCommand s).reads = s.reads := rfl
@[simp] theorem dropCommand_draws : (dropCommand s).draws = s.draws := rfl

/-! ### complete -/

@[simp] theorem complete_cfg (v : Word) : (complete v s).cfg = s.cfg := rfl
@[simp] theorem complete_status (v : Word) : (complete v s).status = s.status.completed := rfl
@[simp] theorem complete_regs (v : Word) : (complete v s).regs = { s.regs with result := v } := rfl
@[simp] theorem complete_fsm (v : Word) : (complete v s).fsm = .idle := rfl
@[simp] theorem complete_work (v : Word) : (complete v s).work = s.work := rfl
@[simp] theorem complete_window (v : Word) : (complete v s).window = none := rfl
@[simp] theorem complete_input (v : Word) : (complete v s).input = s.input := rfl
@[simp] theorem complete_moves (v : Word) : (complete v s).moves = s.moves := rfl
@[simp] theorem complete_rdata (v : Word) : (complete v s).rdata = s.rdata := rfl
@[simp] theorem complete_reads (v : Word) : (complete v s).reads = s.reads := rfl
@[simp] theorem complete_draws (v : Word) : (complete v s).draws = s.draws := rfl

/-! ### abortCommand -/

@[simp] theorem abortCommand_cfg : (abortCommand s).cfg = s.cfg := rfl
@[simp] theorem abortCommand_status : (abortCommand s).status = Status.cleared := rfl
@[simp] theorem abortCommand_regs : (abortCommand s).regs = s.regs := rfl
@[simp] theorem abortCommand_fsm : (abortCommand s).fsm = .idle := rfl
@[simp] theorem abortCommand_work : (abortCommand s).work = freeWork s.cfg s.draws := rfl
@[simp] theorem abortCommand_window : (abortCommand s).window = none := rfl
@[simp] theorem abortCommand_input : (abortCommand s).input = s.input := rfl
@[simp] theorem abortCommand_moves : (abortCommand s).moves = s.moves := rfl
@[simp] theorem abortCommand_rdata : (abortCommand s).rdata = s.rdata := rfl
@[simp] theorem abortCommand_reads : (abortCommand s).reads = s.reads := rfl
@[simp] theorem abortCommand_draws : (abortCommand s).draws = s.draws + 8 := rfl

/-! ### resetEvent -/

@[simp] theorem resetEvent_cfg : (resetEvent s).cfg = s.cfg := rfl
@[simp] theorem resetEvent_status : (resetEvent s).status = Status.cleared := rfl
@[simp] theorem resetEvent_regs : (resetEvent s).regs = State.reset.regs := rfl
@[simp] theorem resetEvent_fsm : (resetEvent s).fsm = .idle := rfl
@[simp] theorem resetEvent_work : (resetEvent s).work = freeWork s.cfg s.draws := rfl
@[simp] theorem resetEvent_window : (resetEvent s).window = none := rfl
@[simp] theorem resetEvent_input : (resetEvent s).input = s.input := rfl
@[simp] theorem resetEvent_moves : (resetEvent s).moves = s.moves := rfl
@[simp] theorem resetEvent_rdata : (resetEvent s).rdata = s.rdata := rfl
@[simp] theorem resetEvent_reads : (resetEvent s).reads = s.reads := rfl
@[simp] theorem resetEvent_draws : (resetEvent s).draws = s.draws + 8 := rfl

/-! ### takeMove -/

@[simp] theorem takeMove_cfg : (takeMove s).cfg = s.cfg := rfl
@[simp] theorem takeMove_status : (takeMove s).status = s.status := rfl
@[simp] theorem takeMove_regs : (takeMove s).regs = s.regs := rfl
@[simp] theorem takeMove_fsm : (takeMove s).fsm = s.fsm := rfl
@[simp] theorem takeMove_work : (takeMove s).work = s.work := rfl
@[simp] theorem takeMove_window : (takeMove s).window = s.window := rfl
@[simp] theorem takeMove_input : (takeMove s).input = s.input := rfl
@[simp] theorem takeMove_moves : (takeMove s).moves = s.moves.tail := rfl
@[simp] theorem takeMove_rdata : (takeMove s).rdata = s.rdata := rfl
@[simp] theorem takeMove_reads : (takeMove s).reads = [] := rfl
@[simp] theorem takeMove_draws : (takeMove s).draws = s.draws := rfl

/-! ### writeOperand -/

@[simp] theorem writeOperand_cfg (slot : Slot) (v : Word) : (writeOperand slot v s).cfg = s.cfg := by
  cases slot <;> rfl
@[simp] theorem writeOperand_status (slot : Slot) (v : Word) : (writeOperand slot v s).status = s.status := by
  cases slot <;> rfl
@[simp] theorem writeOperand_fsm (slot : Slot) (v : Word) : (writeOperand slot v s).fsm = s.fsm := by
  cases slot <;> rfl
@[simp] theorem writeOperand_work (slot : Slot) (v : Word) : (writeOperand slot v s).work = s.work := by
  cases slot <;> rfl
@[simp] theorem writeOperand_window (slot : Slot) (v : Word) : (writeOperand slot v s).window = s.window := by
  cases slot <;> rfl
@[simp] theorem writeOperand_input (slot : Slot) (v : Word) : (writeOperand slot v s).input = s.input := by
  cases slot <;> rfl
@[simp] theorem writeOperand_moves (slot : Slot) (v : Word) : (writeOperand slot v s).moves = s.moves := by
  cases slot <;> rfl
@[simp] theorem writeOperand_rdata (slot : Slot) (v : Word) : (writeOperand slot v s).rdata = s.rdata := by
  cases slot <;> rfl
@[simp] theorem writeOperand_reads (slot : Slot) (v : Word) : (writeOperand slot v s).reads = s.reads := by
  cases slot <;> rfl
@[simp] theorem writeOperand_draws (slot : Slot) (v : Word) : (writeOperand slot v s).draws = s.draws := by
  cases slot <;> rfl

@[simp] theorem writeOperand_result (slot : Slot) (v : Word) : (writeOperand slot v s).regs.result = s.regs.result := by
  cases slot <;> rfl

/-! ### The size of the input space -/

@[simp] theorem hostStore_spaceSize (a : Nat) (b : Byte) : (hostStore a b s).spaceSize = s.spaceSize := rfl
@[simp] theorem recordReads_spaceSize (addrs : List Nat) : (recordReads addrs s).spaceSize = s.spaceSize := rfl
@[simp] theorem forgetWork_spaceSize : (forgetWork s).spaceSize = s.spaceSize := rfl
@[simp] theorem raiseCmdError_spaceSize (cause : CmdError) : (raiseCmdError cause s).spaceSize = s.spaceSize := rfl
@[simp] theorem dropCommand_spaceSize : (dropCommand s).spaceSize = s.spaceSize := rfl
@[simp] theorem complete_spaceSize (v : Word) : (complete v s).spaceSize = s.spaceSize := rfl
@[simp] theorem abortCommand_spaceSize : (abortCommand s).spaceSize = s.spaceSize := rfl
@[simp] theorem resetEvent_spaceSize : (resetEvent s).spaceSize = s.spaceSize := rfl
@[simp] theorem takeMove_spaceSize : (takeMove s).spaceSize = s.spaceSize := rfl

@[simp] theorem takeMove_inputByte (a : Nat) : (takeMove s).inputByte a = s.inputByte a := rfl

end Sys2Proof.Machine
end

