-- ==== Sys2Proof/Laws/Ops.lean ====
section
/-! SUPPORT. One spec lemma for each shared operation and each operand form: all that it can do, said once. -/

namespace Sys2Proof.Machine

open Sys2Proof

/-! ### Operands -/

/-- An `ADDR_W`-bit register keeps the low bits (10_state R26). -/
@[simp] theorem truncAddr_toNat (c : Config) (v : Word) : (truncAddr c v).toNat = v.toNat % 2 ^ c.addrW := by
  rw [truncAddr, BitVec.toNat_ofNat]
  exact Nat.mod_eq_of_lt (lt_of_le_of_lt (Nat.mod_le _ _) v.isLt)

theorem truncAddr_lt (c : Config) (v : Word) : (truncAddr c v).toNat < 2 ^ c.addrW := by
  rw [truncAddr_toNat]
  exact Nat.mod_lt _ (Nat.two_pow_pos _)

/-- An address that fits is kept. -/
theorem truncAddr_of_lt (c : Config) (v : Word) (h : v.toNat < 2 ^ c.addrW) : truncAddr c v = v := by
  apply BitVec.eq_of_toNat_eq
  rw [truncAddr_toNat, Nat.mod_eq_of_lt h]

/-- The classifier's phases by their thresholds (41_digest_core R96). -/
theorem phase_eq (rem : Nat) : phase rem = if rem ≤ 16 then .tail else if rem ≤ 64 then .medium else .bulk := by
  unfold phase lengthClass
  split_ifs <;> first | rfl | omega

/-- A little-endian value is below 256 to the number of its bytes. -/
theorem leValue_lt (byteAt : Nat → Byte) (n : Nat) : ∀ addr, leValue byteAt addr n < 256 ^ n := by
  induction n with
  | zero => intro addr; simp [leValue]
  | succ n ih =>
    intro addr
    have hb := (byteAt addr).isLt
    have hrest := ih (addr + 1)
    rw [leValue, pow_succ]
    omega

/-- A little-endian value depends on its own bytes only. -/
theorem leValue_congr {f g : Nat → Byte} (n : Nat) :
    ∀ addr, (∀ a, addr ≤ a → a < addr + n → f a = g a) → leValue f addr n = leValue g addr n := by
  induction n with
  | zero => intro addr _; rfl
  | succ n ih =>
    intro addr h
    rw [leValue, leValue, h addr (le_refl _) (by omega), ih (addr + 1) fun a h1 h2 => h a (by omega) (by omega)]

theorem memRead_congr {f g : Nat → Byte} (addr n : Nat) (h : ∀ a, addr ≤ a → a < addr + n → f a = g a) :
    memRead f addr n = memRead g addr n := by
  rw [memRead, memRead, leValue_congr n addr h]

/-! ### Read sets -/

theorem mem_insertAddress (a x : Nat) (l : List Nat) : x ∈ insertAddress a l ↔ x = a ∨ x ∈ l := by
  induction l with
  | nil => simp [insertAddress]
  | cons y ys ih =>
    rw [insertAddress]
    split_ifs with h1 h2
    · simp
    · subst h2; simp
    · simp only [List.mem_cons, ih]; tauto

@[simp] theorem mem_addressSet (x : Nat) (l : List Nat) : x ∈ addressSet l ↔ x ∈ l := by
  induction l with
  | nil => simp [addressSet]
  | cons y ys ih =>
    have : addressSet (y :: ys) = insertAddress y (addressSet ys) := rfl
    rw [this, mem_insertAddress, ih, List.mem_cons]

@[simp] theorem mem_readSpan (x addr n : Nat) : x ∈ readSpan addr n ↔ addr ≤ x ∧ x < addr + n := by
  simp [readSpan, List.mem_range'_1]

/-- A tail step reads only the tail (20_memory R55). -/
theorem readSet_tail_bounds (s : State) (hf : s.fsm = .tail) (hr : s.work.rem.toNat ≤ 16) (a : Nat) (ha : a ∈ readSet s) :
    s.work.ptr.toNat ≤ a ∧ a < s.work.ptr.toNat + s.work.rem.toNat := by
  unfold readSet at ha
  simp only [hf, lengthClass] at ha
  split_ifs at ha <;> simp at ha <;> omega

/-- What the ENGINE needs to have a step: every address of its read set exists. -/
theorem missingAddress_eq_none (s : State) : missingAddress s = none ↔ ∀ a ∈ readSet s, a < s.spaceSize := by
  simp [missingAddress, List.find?_eq_none]

/-! ### The ends of a command -/

/-- A command that is neither NOP nor ABORT: dropped or taken. -/
theorem unlessBusy_cases (take : State → State) (s : State) :
    (s.status.busy = true ∧ unlessBusy take s = dropCommand s) ∨ (s.status.busy = false ∧ unlessBusy take s = take s) := by
  cases h : s.status.busy <;> simp [unlessBusy, h]

/-- HASH64 while idle: RANGE or acceptance. -/
theorem acceptHash64_cases (s : State) :
    (s.regs.src.toNat + s.regs.len.toNat > s.spaceSize ∧ acceptHash64 s = raiseCmdError .range s) ∨
    (s.regs.src.toNat + s.regs.len.toNat ≤ s.spaceSize ∧
      acceptHash64 s =
        { s with
          work :=
            { s.work with
              cs := s.regs.seed ^^^ pi0, ds := s.regs.seed ^^^ pi0, slen := s.regs.len, rem := s.regs.len,
              ptr := s.regs.src }
          status := Status.accepted
          fsm := phase s.regs.len.toNat
          window := some { base := s.regs.src.toNat, len := s.regs.len.toNat, stable := true } }) := by
  by_cases h : s.regs.src.toNat + s.regs.len.toNat > s.spaceSize
  · exact .inl ⟨h, by rw [acceptHash64, if_pos h]⟩
  · exact .inr ⟨by omega, by rw [acceptHash64, if_neg h]⟩

/-- The completion of a digest: the value, or a free one where the window has changed. -/
theorem completeDigest_cases (v : Word) (s : State) :
    ((∀ w, s.window = some w → w.stable = true) ∧ completeDigest v s = complete v s) ∨
    ((∃ w, s.window = some w ∧ w.stable = false) ∧
      completeDigest v s = complete (Config.freeWord s.draws) { s with draws := s.draws + 1 }) := by
  unfold completeDigest
  cases hw : s.window with
  | none => exact .inl ⟨by simp, rfl⟩
  | some w =>
    cases hs : w.stable with
    | true => exact .inl ⟨by simp [hs], by simp [hs]⟩
    | false => exact .inr ⟨⟨w, rfl, hs⟩, by simp [hs]⟩

/-- Dispatch: one of seven things (43_host_operations R137). -/
theorem dispatch_cases (v : Word) (s : State) :
    (v = 0x0#64 ∧ dispatch v s = s) ∨
    (v = 0xF#64 ∧ dispatch v s = abortCommand s) ∨
    (v ≠ 0x0#64 ∧ v ≠ 0xF#64 ∧ s.status.busy = true ∧ dispatch v s = dropCommand s) ∨
    (v = 0x1#64 ∧ s.status.busy = false ∧ dispatch v s = acceptHash64 s) ∨
    (v = 0x2#64 ∧ s.status.busy = false ∧ dispatch v s = acceptHash64Pair s) ∨
    (v = 0x3#64 ∧ s.status.busy = false ∧ dispatch v s = acceptMix64 s) ∨
    (v ≠ 0x0#64 ∧ v ≠ 0xF#64 ∧ v ≠ 0x1#64 ∧ v ≠ 0x2#64 ∧ v ≠ 0x3#64 ∧ s.status.busy = false ∧
      dispatch v s = raiseCmdError .illegalCmd s) := by
  unfold dispatch
  split_ifs <;> simp_all

/-- The ENGINE's move: its effect and its read set, where its guard finds nothing missing. -/
theorem engineStep_next {s t : State} (h : engineStep s = .next t) :
    engineGuard s = none ∧ t = recordReads (readSet s) (engineEffect s) := by
  unfold engineStep at h
  cases hg : engineGuard s with
  | none => simp only [hg] at h; exact ⟨rfl, by injection h with h; exact h.symm⟩
  | some f => simp [hg] at h

theorem engineStep_of_guard {s : State} (h : engineGuard s = none) :
    engineStep s = .next (recordReads (readSet s) (engineEffect s)) := by
  rw [engineStep, h]

/-- The ENGINE neither looks at the moves to come nor changes them. -/
theorem engineEffect_withMoves (s : State) (moves : List Move) :
    (engineEffect s).moves = s.moves ∧
    engineEffect { s with moves := moves } = { engineEffect s with moves := moves } := by
  obtain ⟨cfg, status, regs, fsm, work, window, input, pending, rdata, reads, draws⟩ := s
  cases fsm with
  | fin2 =>
    rcases window with _ | ⟨base, len, _ | _⟩
    all_goals exact ⟨rfl, rfl⟩
  | _ => exact ⟨rfl, rfl⟩

theorem engineStep_withMoves {s t : State} (moves : List Move) (h : engineStep s = .next t) :
    t.moves = s.moves ∧ engineStep { s with moves := moves } = .next { t with moves := moves } := by
  obtain ⟨hg, rfl⟩ := engineStep_next h
  obtain ⟨hmoves, heffect⟩ := engineEffect_withMoves s moves
  refine ⟨hmoves, (engineStep_of_guard (s := { s with moves := moves }) hg).trans ?_⟩
  rw [heffect]
  rfl

end Sys2Proof.Machine
end

