-- ==== Sys2Proof/Laws/PerInstr.lean ====
section
/-! SUPPORT. Statements about every instruction as syntax, one lemma for each constructor. -/

namespace Sys2Proof.Laws.Format

open Sys2Proof

/-- An instruction is encoded in one format: a transaction has a header, a command is a word with MBZ zero (30_encoding
R70, R71, R75). -/
def Statement (i : Instr) : Prop :=
  match encode i with
  | .cmd64 word => word.extractLsb' 4 60 = 0
  | .port header _ => ∃ slot, header = portHeader (header.getLsbD 4) slot

/-- Bit 4 of a header is WE (30_encoding R75). -/
theorem portHeader_we (we : Bool) (slot : Slot) : portHeader ((portHeader we slot).getLsbD 4) slot = portHeader we slot := by
  have h : ∀ (b : Bool) (i : BitVec 4), (BitVec.ofBool b ++ i : BitVec 5).getLsbD 4 = b := by decide
  simp only [portHeader, h]

theorem nop : Statement .nop := by
  change _ = _
  decide

theorem hash64 : Statement .hash64 := by
  change _ = _
  decide

theorem hash64Pair : Statement .hash64Pair := by
  change _ = _
  decide

theorem mix64 : Statement .mix64 := by
  change _ = _
  decide

theorem abort : Statement .abort := by
  change _ = _
  decide

theorem regRead (slot : Slot) : Statement (.regRead slot) :=
  ⟨slot, by rw [portHeader_we]⟩

theorem regWrite (slot : Slot) (data : Word) : Statement (.regWrite slot data) :=
  ⟨slot, by rw [portHeader_we]⟩

end Sys2Proof.Laws.Format
end

