-- ==== Sys2Proof/Laws/Step.lean ====
section
/-! SUPPORT. What an instruction and a step can do, said once. -/

namespace Sys2Proof.Machine

open Sys2Proof

/-- The next state of an instruction. -/
def execState (i : Instr) (s : State) : State :=
  match i with
  | .nop => s
  | .hash64 => unlessBusy acceptHash64 s
  | .hash64Pair => unlessBusy acceptHash64Pair s
  | .mix64 => unlessBusy acceptMix64 s
  | .abort => abortCommand s
  | .regRead slot => { s with rdata := some (readSlot slot s) }
  | .regWrite slot data => if slot = .cmd then dispatch data s else writeOperand slot data s

/-- No instruction stops. -/
theorem exec_eq_next (i : Instr) (s : State) : exec i s = .next (execState i s) := by
  cases i with
  | regWrite slot data => cases slot <;> rfl
  | _ => rfl

/-- What a transaction does: the decoded instruction, or the illegal-command rule. -/
theorem hostTurn_eq_next (e : Encoded) (s : State) :
    hostTurn e s =
      .next (match decode e with | .ok i => execState i s | .error _ => illegalCommand s) := by
  unfold hostTurn
  cases decode e with
  | ok i => exact exec_eq_next i s
  | error _ => rfl

/-- A step is the ENGINE's, a HOST transaction, a reset or a store, on the state with the move taken. -/
theorem step_cases {s t : State} (h : step s = .next t) :
    (nextMove s = .engine ∧ engineGuard (takeMove s) = none ∧
      t = recordReads (readSet (takeMove s)) (engineEffect (takeMove s))) ∨
    (∃ e i, nextMove s = .host e ∧ decode e = .ok i ∧ t = execState i (takeMove s)) ∨
    (∃ e r, nextMove s = .host e ∧ decode e = .error r ∧ t = illegalCommand (takeMove s)) ∨
    (nextMove s = .reset ∧ t = resetEvent (takeMove s)) ∨
    (∃ a b, nextMove s = .store a b ∧ a < s.spaceSize ∧ t = hostStore a b (takeMove s)) := by
  unfold step runMove at h
  cases hm : nextMove s with
  | engine =>
    simp only [hm] at h
    exact .inl ⟨rfl, engineStep_next h⟩
  | host e =>
    simp only [hm, hostTurn_eq_next] at h
    cases hd : decode e with
    | ok i =>
      simp only [hd] at h
      injection h with h
      exact .inr (.inl ⟨e, i, rfl, hd, h.symm⟩)
    | error r =>
      simp only [hd] at h
      injection h with h
      exact .inr (.inr (.inl ⟨e, r, rfl, hd, h.symm⟩))
  | reset =>
    simp only [hm] at h
    injection h with h
    exact .inr (.inr (.inr (.inl ⟨rfl, h.symm⟩)))
  | store a b =>
    simp only [hm, storeTurn] at h
    split at h
    · rename_i ha
      injection h with h
      exact .inr (.inr (.inr (.inr ⟨a, b, rfl, ha, h.symm⟩)))
    · cases h

/-- A step runs the first pending move on the state with that move taken. -/
theorem step_of_moves {s : State} {m : Move} {rest : List Move} (h : s.moves = m :: rest) :
    step s = runMove m { s with moves := rest, reads := [] } := by
  rw [step, nextMove, takeMove, h]
  rfl

/-! ### The moves of a clock cycle (20_memory R66) -/

/-- A read comes before the ENGINE step of its cycle. -/
theorem cycleMoves_of_read {e : Encoded} {slot : Slot} (h : decode e = .ok (.regRead slot)) :
    cycleMoves false (some e) true = [.host e, .engine] := by
  simp [cycleMoves, h]

/-- Any other transaction comes after it. -/
theorem cycleMoves_of_write {e : Encoded} (h : ∀ slot, decode e ≠ .ok (.regRead slot)) :
    cycleMoves false (some e) true = [.engine, .host e] := by
  unfold cycleMoves
  cases hd : decode e with
  | error r => simp only [hd]; rfl
  | ok i =>
    cases i with
    | regRead slot => exact absurd hd (h slot)
    | _ => simp only [hd]; rfl

end Sys2Proof.Machine
end

