-- ==== Sys2Proof/Machine/Pseudo.lean ====
section
/-! DEFINITION. The pseudo-instructions of host programs (30_encoding R83) and their expansions. They are no part of the
block: a host program is a list of transactions. -/

namespace Sys2Proof.Machine

open Sys2Proof

/-- The pseudo-instructions of R83. `wait` is a host-side loop; `polls` is how often it reads STATUS in one run (log 18). -/
inductive Pseudo where
  | nop
  | hash64
  | hash64Pair
  | mix64
  | abort
  | wait (polls : Nat)
  | digest (src len seed : Word) (polls : Nat)
  | pairdigest (a b seed : Word) (polls : Nat)
  | mixop (a b : Word) (polls : Nat)
  deriving DecidableEq, Repr

/-- The expansion of a pseudo-instruction into `rd` and `wr` transactions (R83). -/
def Pseudo.expand : Pseudo → List Instr
  | .nop => [.regWrite .cmd 0x0]
  | .hash64 => [.regWrite .cmd 0x1]
  | .hash64Pair => [.regWrite .cmd 0x2]
  | .mix64 => [.regWrite .cmd 0x3]
  | .abort => [.regWrite .cmd 0xF]
  | .wait polls => List.replicate polls (.regRead .status)
  | .digest src len seed polls =>
    [.regWrite .src src, .regWrite .len len, .regWrite .seed seed, .regWrite .cmd 0x1] ++
      List.replicate polls (.regRead .status) ++ [.regRead .status, .regRead .result]
  | .pairdigest a b seed polls =>
    [.regWrite .opa a, .regWrite .opb b, .regWrite .seed seed, .regWrite .cmd 0x2] ++
      List.replicate polls (.regRead .status) ++ [.regRead .status, .regRead .result]
  | .mixop a b polls =>
    [.regWrite .opa a, .regWrite .opb b, .regWrite .cmd 0x3] ++
      List.replicate polls (.regRead .status) ++ [.regRead .status, .regRead .result]

/-- A host program as the moves of its transactions, in program order (00_scope R7). -/
def programMoves (program : List Instr) : List Move := program.map fun i => .host (encode i)

end Sys2Proof.Machine
end

