-- ==== Sys2Proof/Tests/Slice0.lean ====
section
/-! SUPPORT. The model's own tests. Every expected value is the spec's: 95_test_vectors (§ named), a rule's own example, or
a word written out from 30_encoding. The witnesses at the end meet the hypotheses of the statements of the same name. -/

namespace Sys2Proof.Tests

open Sys2Proof Sys2Proof.Machine

/-! ### Helpers -/

/-- The next state of an outcome. -/
def after (o : Host.Outcome State Fault Refusal) : Option State :=
  match o with
  | .next s => some s
  | .fault _ => none
  | .refused _ => none

/-- The bytes 0, 1, 2, … (95 Notation, `P(L)`). -/
def pattern (n : Nat) : List Byte := (List.range n).map fun i => BitVec.ofNat 8 i

/-- Bytes listed from an address on. -/
def memoryOf (base : Nat) (bytes : List Byte) : Memory :=
  (bytes.zipIdx.map fun c => (base + c.2, c.1)).filter fun c => c.2 != blankByte

/-- A state with STATUS, operands and bytes from address 0x100 on. -/
def idleState (status : Status) (src len : Word) (bytes : List Byte) : State :=
  { State.reset with
    status := status
    regs := { State.reset.regs with src := src, len := len }
    input := memoryOf 0x100 bytes }

/-- A HASH64 in progress over a window from address 0x100 on, seed 0. -/
def busyState (fsm : Fsm) (cs ds : Word) (done rem : Nat) (bytes : List Byte) : State :=
  { State.reset with
    status := Status.accepted
    fsm := fsm
    work :=
      { State.reset.work with
        cs := cs, ds := ds, ptr := BitVec.ofNat 64 (0x100 + done), rem := BitVec.ofNat 64 rem,
        slen := BitVec.ofNat 64 (done + rem) }
    window := some { base := 0x100, len := done + rem, stable := true }
    input := memoryOf 0x100 bytes }

/-! ### Well-formedness -/

theorem test_slot_8_is_not_reserved : (Instr.regRead (.reserved 8)).wellFormed = false := by decide

theorem test_slot_16_is_no_slot : (Instr.regWrite (.reserved 16) 0).wellFormed = false := by decide

theorem test_slot_9_is_well_formed : (Instr.regWrite (.reserved 9) 0).wellFormed = true := by decide

/-! ### Decoding: words written out from 30_encoding R71, R72, R75, R82 -/

theorem test_decode_nop : decode (.cmd64 0x0000000000000000#64) = .ok .nop := by decide

theorem test_decode_hash64 : decode (.cmd64 0x0000000000000001#64) = .ok .hash64 := by decide

theorem test_decode_hash64_pair : decode (.cmd64 0x0000000000000002#64) = .ok .hash64Pair := by decide

theorem test_decode_mix64 : decode (.cmd64 0x0000000000000003#64) = .ok .mix64 := by decide

theorem test_decode_abort : decode (.cmd64 0x000000000000000F#64) = .ok .abort := by decide

theorem test_decode_rd_status : decode (.port 0b00001#5 0) = .ok (.regRead .status) := by decide

theorem test_decode_rd_slot12 : decode (.port 0b01100#5 0) = .ok (.regRead (.reserved 12)) := by decide

theorem test_decode_wr_cmd : decode (.port 0b10010#5 0x1#64) = .ok (.regWrite .cmd 0x1#64) := by decide

theorem test_decode_wr_src : decode (.port 0b10100#5 0x12345FFFF#64) = .ok (.regWrite .src 0x12345FFFF#64) := by decide

theorem test_decode_0x10_is_illegal : decode (.cmd64 0x10#64) = .error (.mbzNotZero 0x10#64) := by decide

theorem test_decode_0x4_is_reserved : decode (.cmd64 0x4#64) = .error (.reservedOpcode 0x4#64) := by decide

theorem test_decode_top_bit_is_illegal :
    decode (.cmd64 0x8000000000000001#64) = .error (.mbzNotZero 0x8000000000000001#64) := by decide

theorem test_table_rows :
    decodeTableWord 64 0x1 = some .hash64 ∧ decodeTableWord 8 0x01 = some (.regRead .status) ∧
    decodeTableWord 8 0x13 = some (.regWrite .seed 0) ∧ decodeTableWord 72 0x4115 = some (.regWrite .len 0x41) ∧
    decodeTableWord 64 0x4 = none ∧ decodeTableWord 8 0x20 = none := by decide

/-- 20_memory R61: slot 8 is at REG_BASE + 0x40. -/
theorem test_bus_result :
    busTransaction { addrW := 64, regBase := 0x1000 } false 0x1040 0 = some (.port 0x08#5 0) ∧
    busTransaction { addrW := 64, regBase := 0x1000 } false 0x1041 0 = none ∧
    busTransaction { addrW := 64, regBase := 0x1000 } true 0x1080 0 = none := by decide

/-! ### The mixer (95 §2.1) -/

theorem test_mix_pi : mix64 0x243F6A8885A308D3#64 0x13198A2E03707344#64 = 0xBC13060E2D1AAC79#64 := by decide

theorem test_mix_full_product : mix64 0x100000000#64 0x100000000#64 = 0x1#64 := by decide

/-! ### The classifier (95 §2.2) and the tail (95 §2.3) -/

theorem test_classes :
    [0, 1, 3, 4, 8, 9, 16, 17, 64, 65, 2 ^ 64 - 1].map (fun r => (lengthClass r).code.toNat) =
      [0, 1, 1, 2, 2, 3, 3, 4, 4, 5, 5] := by decide

theorem test_tail_short :
    tailValues (fun i => (pattern 3).getD i 0) 0 3 = (0x102#64, 0#64) ∧
    tailValues (fun i => (pattern 18).getD i 0) 16 2 = (0x101111#64, 0#64) ∧
    tailValues (fun i => (pattern 17).getD i 0) 16 1 = (0x101010#64, 0#64) := by decide

theorem test_tail_long :
    tailValues (fun i => (pattern 5).getD i 0) 0 5 = (0x03020100#64, 0x04030201#64) ∧
    tailValues (fun i => (pattern 9).getD i 0) 0 9 = (0x0706050403020100#64, 0x0807060504030201#64) := by decide

/-! ### The digest function (95 §1.1, §2.4, §2.6) -/

theorem test_digest_empty : hash64 [] 0 = 0x53097B8ED678AF76#64 := by decide

theorem test_digest_empty_seeded : hash64 [] 0x9E3779B97F4A7C15#64 = 0x153AF508A10A0825#64 := by decide

theorem test_digest_abc : hash64 [0x61, 0x62, 0x63] 0 = 0xEB64839216D3C841#64 := by decide

theorem test_digest_17 : hash64 (pattern 17) 0x0123456789ABCDEF#64 = 0x929597FB3776E6FB#64 := by decide

theorem test_digest_130 : hash64 (pattern 130) 0x0123456789ABCDEF#64 = 0xCD034AD5C37F2CDD#64 := by decide +kernel

theorem test_pair : hash64Pair 0x0706050403020100#64 0x0F0E0D0C0B0A0908#64 0 = 0xAD7ABA10B3E253AB#64 := by decide

theorem test_step_counts : [0, 16, 17, 64, 65, 128, 129, 200, 256, 4096].map hashSteps = [3, 3, 4, 6, 5, 8, 6, 7, 10, 70] := by
  decide

/-! ### The ENGINE's steps, one each (95 §3) -/

theorem test_bulk_step :
    (after (engineStep (busyState .bulk pi0 pi0 0 65 (pattern 65)))).map
      (fun s => (s.work.cs, s.work.ds, s.work.ptr, s.work.rem, s.fsm)) =
      some (0xB12F08D9514D4A0E#64, 0x0A55C1702A353165#64, 0x140#64, 1#64, .fold) := by decide +kernel

theorem test_fold_step :
    (after (engineStep (busyState .fold 0xB12F08D9514D4A0E#64 0x0A55C1702A353165#64 64 1 []))).map
      (fun s => (s.work.cs, s.fsm)) = some (0xBB7AC9A97B787B6B#64, .tail) := by decide

theorem test_medium_step :
    (after (engineStep (busyState .medium pi0 pi0 0 17 (pattern 17)))).map
      (fun s => (s.work.cs, s.work.ptr, s.work.rem, s.fsm)) =
      some (0xB4ED9FD4680DD57F#64, 0x110#64, 1#64, .tail) := by decide +kernel

theorem test_tail_step :
    (after (engineStep (busyState .tail pi0 pi0 0 3 [0x61, 0x62, 0x63]))).map
      (fun s => (s.work.ta, s.work.tb, s.fsm, s.reads)) = some (0x616263#64, 0#64, .fin1, [0x100, 0x101, 0x102]) := by
  decide

theorem test_fin1_step :
    (after (engineStep (busyState .fin1 pi0 pi0 0 0 []))).map (fun s => (s.work.w, s.fsm)) =
      some (0xBC13060E2D1AAC79#64, .fin2) := by decide

/-- 95 §2.9: STATUS 0x9 in FIN2 becomes 0xA. -/
theorem test_fin2_step :
    (after (engineStep
      { busyState .fin2 pi0 pi0 0 0 [] with
        work := { (busyState .fin2 pi0 pi0 0 0 []).work with w := 0xBC13060E2D1AAC79#64 }
        status := Status.accepted.dropped })).map
      (fun s => (s.regs.result, s.status.word, s.fsm)) = some (0x53097B8ED678AF76#64, 0xA#64, .idle) := by decide

/-- The example of 40_mixing_primitive R91. -/
theorem test_mixo_step :
    (after (engineStep
      { State.reset with
        status := Status.accepted
        fsm := .mixo
        work := { State.reset.work with ta := 0x8000000000000001#64, tb := 0x8000000000000001#64 } })).map
      (fun s => (s.regs.result, s.status.word)) = some (0x4000000000000000#64, 0x2#64) := by decide

/-- 20_memory R55: TAIL with rem 12 reads all of the tail once. -/
theorem test_read_set : readSet (busyState .tail 0 0 4 12 []) = List.range' 0x104 12 := by decide

/-! ### Commands and STATUS (95 §2.9) -/

theorem test_nop_keeps_done :
    (after (exec .nop (idleState Status.accepted.completed 0 0 []))).map (fun s => s.status.word) = some 0x2#64 := by decide

theorem test_hash64_accepted :
    (after (exec .hash64 (idleState (Status.cleared.rejected .range) 0x100 3 []))).map
      (fun s => (s.status.word, s.fsm, s.work.cs, s.work.rem, s.work.ptr)) =
      some (0x1#64, .tail, 0x243F6A8885A308D3#64, 3#64, 0x100#64) := by decide

/-- 95 §2.9 and program 4: SRC = MAX with LEN = 2 passes the top. SRC = 1 with LEN = MAX ends at the top exactly, and the
condition of 41_digest_core R97 accepts it (log 19). -/
theorem test_hash64_range :
    (after (exec .hash64 (idleState Status.cleared 0xFFFFFFFFFFFFFFFF#64 2 []))).map (fun s => (s.status.word, s.fsm)) =
      some (0x26#64, .idle) ∧
    (after (exec .hash64 (idleState Status.cleared 1 0xFFFFFFFFFFFFFFFF#64 []))).map (fun s => (s.status.word, s.fsm)) =
      some (0x1#64, .bulk) := by decide

theorem test_pair_accepted :
    (after (exec .hash64Pair (idleState Status.cleared 0 0 []))).map
      (fun s => (s.status.word, s.fsm, s.work.slen)) = some (0x1#64, .fin1, 16#64) := by decide

theorem test_pair_dropped :
    (after (exec .hash64Pair (busyState .bulk pi0 pi0 0 65 []))).map (fun s => (s.status.word, s.fsm)) =
      some (0x9#64, .bulk) := by decide

theorem test_mix64_clears_ovr :
    (after (exec .mix64 (idleState Status.accepted.dropped.completed 0 0 []))).map (fun s => (s.status.word, s.fsm)) =
      some (0x1#64, .mixo) := by decide

theorem test_abort :
    (after (exec .abort (busyState .bulk pi0 pi0 0 65 []))).map (fun s => (s.status.word, s.fsm)) =
      some (0x0#64, .idle) := by decide

theorem test_rd_id :
    (after (exec (.regRead .id) State.reset)).bind (fun s => s.rdata) = some 0x4348363446000001#64 := by decide

theorem test_rd_status :
    (after (exec (.regRead .status) (idleState (Status.cleared.rejected .illegalCmd) 0 0 []))).bind (fun s => s.rdata) =
      some 0x16#64 := by decide

theorem test_wr_cmd_illegal :
    (after (exec (.regWrite .cmd 0x8000000000000001#64) State.reset)).map (fun s => s.status.word) = some 0x16#64 := by decide

/-- 95 program 7: ADDR_W = 16. -/
theorem test_wr_src_keeps_low_bits :
    (after (exec (.regWrite .src 0x12345FFFF#64) { State.reset with cfg := { addrW := 16, regBase := 0 } })).map
      (fun s => s.regs.src) = some 0xFFFF#64 := by decide

/-! ### Moves -/

theorem test_fetched_word_runs :
    (after (step (State.reset.withFetchWord 64 0x3))).map (fun s => s.fsm) = some .mixo := by decide

theorem test_illegal_word_is_rejected :
    (after (step { State.reset with moves := [.host (.cmd64 0x1F#64)] })).map (fun s => s.status.word) = some 0x16#64 := by
  decide

theorem test_reset_event :
    (after (step { idleState (Status.cleared.rejected .range) 5 6 [] with moves := [.reset] })).map
      (fun s => (s.status.word, s.regs.src, s.fsm)) = some (0x0#64, 0x0#64, .idle) := by decide

theorem test_store_breaks_the_window :
    (after (step { busyState .bulk pi0 pi0 0 65 [] with moves := [.store 0x140 7] })).map
      (fun s => (s.windowBroken, s.inputByte 0x140)) = some (true, 7#8) := by decide

theorem test_store_past_the_window :
    (after (step { busyState .bulk pi0 pi0 0 65 [] with moves := [.store 0x141 7] })).map (fun s => s.windowBroken) =
      some false := by decide

theorem test_cycle_order :
    cycleMoves false (some (.port 0x01#5 0)) true = [.host (.port 0x01#5 0), .engine] ∧
    cycleMoves false (some (.port 0x12#5 0xF#64)) true = [.engine, .host (.port 0x12#5 0xF#64)] ∧
    cycleMoves true (some (.port 0x12#5 0xF#64)) true = [.reset] := by decide

/-- 20_memory R61: ID's bytes, least significant first. -/
theorem test_slot_bytes :
    slotBytes .id State.reset = [0x01#8, 0x00#8, 0x00#8, 0x46#8, 0x34#8, 0x36#8, 0x48#8, 0x43#8] := by decide

/-- 95 §4: the headers of a digest program. -/
theorem test_pseudo_mixop :
    programMoves (Pseudo.expand (.mixop 1 2 1)) =
      [.host (.port 0x16#5 1), .host (.port 0x17#5 2), .host (.port 0x12#5 3), .host (.port 0x01#5 0),
        .host (.port 0x01#5 0), .host (.port 0x08#5 0)] := by decide

/-! ### Witnesses: the hypotheses of the statements can be met -/

/-- The bounds of 41_digest_core R107 on the bytes done and left in each ENGINE state of a HASH64. -/
def withinPhase (done rem : Nat) : Fsm → Bool
  | .bulk => 65 ≤ rem
  | .fold => 1 ≤ rem ∧ rem ≤ 64 ∧ 65 ≤ done + rem
  | .medium => 17 ≤ rem ∧ rem ≤ 64
  | .tail | .fin1 | .fin2 => rem ≤ 16 ∧ (rem = 0 ↔ done + rem = 0)
  | .idle | .mixo => false

/-- A HASH64 in progress within those bounds meets the invariant. -/
theorem inv_busyState (fsm : Fsm) (done rem : Nat) (hsize : done + rem < 4096) (h : withinPhase done rem fsm = true) :
    (busyState fsm 0 0 done rem []).Inv := by
  have toNat_small : ∀ n < 8192, (BitVec.ofNat 64 n).toNat = n := fun n hn => by rw [BitVec.toNat_ofNat]; omega
  have hptr := toNat_small (0x100 + done) (by omega)
  have hrem := toNat_small rem (by omega)
  have hrun : Window.Running { base := 0x100, len := done + rem, stable := true } (2 ^ 64) (busyState fsm 0 0 done rem []).work :=
    { base_le_ptr := by simp only [busyState, hptr]; omega
      ptr_add_rem := by simp only [busyState, hptr, hrem]; omega
      end_inside := by simp only; omega
      slen_eq := toNat_small (done + rem) (by omega) }
  refine
    { cfg_legal := (by decide : Config.standard.Legal)
      input_wf := ⟨List.Pairwise.nil, fun _ h => absurd h List.not_mem_nil⟩
      input_inside := fun _ h => absurd h List.not_mem_nil
      busy_iff := ⟨fun _ hi => ?_, fun _ => rfl⟩
      err_iff := (by decide : Status.accepted.err = true ↔ Status.accepted.errcode ≠ 0)
      errcode_named := Nat.zero_le 2
      err_done := fun h => absurd h Bool.false_ne_true
      busy_clean := fun _ => ⟨rfl, rfl⟩
      src_inside := Nat.two_pow_pos 64
      ptr_inside := lt_of_eq_of_lt hptr (by change _ < 2 ^ 64; omega)
      phase_inv := ?_ }
  · rw [show fsm = .idle from hi] at h
    cases h
  · cases fsm <;> simp only [withinPhase, decide_eq_true_eq, Bool.false_eq_true] at h <;>
      exact ⟨hrun, by simpa only [busyState, hrem] using h⟩

/-- An idle state with a window that fits and a rejection behind it. -/
theorem inv_idleState : (idleState (Status.cleared.rejected .range) 0x100 3 [0x61, 0x62, 0x63]).Inv where
  cfg_legal := by decide
  input_wf := by decide
  input_inside := by decide
  busy_iff := by decide
  err_iff := by decide
  errcode_named := by decide
  err_done := by decide
  busy_clean := by decide
  src_inside := by decide
  ptr_inside := by decide
  phase_inv := trivial

theorem witness_DecodingAnEncodingGivesTheInstruction :
    (Instr.regWrite (.reserved 15) 5).wellFormed = true ∧ (Instr.regRead (.reserved 9)).wellFormed = true := by decide

theorem witness_EncodingADecodingGivesTheWord :
    decode (.port 0x0F#5 7) = .ok (.regRead (.reserved 15)) ∧ decode (.port 0x1F#5 7) = .ok (.regWrite (.reserved 15) 7) := by
  decide

theorem witness_ClassifierFollowsItsThresholds :
    (∀ r ∈ [1, 3], 1 ≤ r ∧ r ≤ 3) ∧ (∀ r ∈ [4, 8], 4 ≤ r ∧ r ≤ 8) ∧ (∀ r ∈ [9, 16], 9 ≤ r ∧ r ≤ 16) ∧
    (∀ r ∈ [17, 64], 17 ≤ r ∧ r ≤ 64) ∧ ∀ r ∈ [65, 2 ^ 64 - 1], 65 ≤ r := by decide

theorem witness_StepRunsTheDecodedTransaction :
    ∃ (s : State) (e : Encoded) (i : Instr) (rest : List Move), s.moves = .host e :: rest ∧ decode e = .ok i :=
  ⟨{ State.reset with moves := [.host (.cmd64 0x1#64)] }, .cmd64 0x1#64, .hash64, [], rfl, rfl⟩

theorem witness_PlacedWordIsRunNext : decodeTableWord 64 0xF = some .abort ∧ decodeTableWord 8 0x1F = some (.regWrite (.reserved 15) 0) := by
  decide

theorem witness_EngineMovesWhenScheduled :
    ∃ s u : State, s.moves = [.engine] ∧ u.moves = [] ∧ u.fsm = .idle :=
  ⟨{ State.reset with moves := [.engine] }, State.reset, rfl, rfl, rfl⟩

theorem witness_EveryHostTransactionCompletes :
    ∃ (s : State) (e : Encoded), s.moves = [.host e] ∧ ∃ r, decode e = .error r :=
  ⟨{ State.reset with moves := [.host (.cmd64 0x4#64)] }, .cmd64 0x4#64, rfl, _, rfl⟩

theorem witness_Hash64IsAcceptedWhenTheWindowFits :
    ∃ s : State, s.status.busy = false ∧ s.regs.src.toNat + s.regs.len.toNat = 2 ^ s.cfg.addrW :=
  ⟨idleState Status.cleared 0xFFFFFFFFFFFFFFFF#64 1 [], by decide⟩

theorem witness_Hash64IsRejectedPastTheTop :
    ∃ s : State, s.status.busy = false ∧ s.regs.src.toNat + s.regs.len.toNat = 2 ^ s.cfg.addrW + 1 :=
  ⟨idleState Status.cleared 0xFFFFFFFFFFFFFFFF#64 2 [], by decide⟩

theorem witness_PairIsAcceptedWhileIdle : State.reset.status.busy = false := by decide

theorem witness_MixIsAcceptedWhileIdle : (idleState (Status.cleared.rejected .range) 0 0 []).status.busy = false := by decide

theorem witness_CommandsWhileBusyAreDropped :
    (busyState .fin2 0 0 0 3 []).status.busy = true ∧ (0x4#64 ≠ 0x0#64) ∧ (0x4#64 ≠ 0xF#64) := by decide

theorem witness_IllegalWordsWhileIdleAreRejected :
    State.reset.status.busy = false ∧ 0x4#64 ∉ [0x0#64, 0x1#64, 0x2#64, 0x3#64, 0xF#64] ∧
    0x1F#64 ∉ [0x0#64, 0x1#64, 0x2#64, 0x3#64, 0xF#64] := by decide

theorem witness_WriteToCmdRunsTheCommand : decode (.cmd64 0xF#64) = .ok .abort := by decide

theorem witness_InstructionsLeaveTheRestAlone :
    ∃ t, exec (.regWrite .seed 5) (busyState .bulk 0 0 0 65 []) = .next t := ⟨_, rfl⟩

theorem witness_BusAddressesAreTheSlots : (Slot.reserved 15).wellFormed = true := by decide

theorem witness_BulkAbsorbsSixtyFourBytes :
    let s := busyState .bulk 0 0 0 65 []
    s.cfg.Legal ∧ s.fsm = .bulk ∧ s.work.rem.toNat > 64 ∧ s.work.ptr.toNat + s.work.rem.toNat ≤ 2 ^ s.cfg.addrW := by decide

theorem witness_FoldMergesTheLanes : (busyState .fold 0 0 64 1 []).fsm = .fold := by decide

theorem witness_MediumAbsorbsSixteenBytes :
    let s := busyState .medium 0 0 0 17 []
    s.cfg.Legal ∧ s.fsm = .medium ∧ 17 ≤ s.work.rem.toNat ∧ s.work.ptr.toNat + s.work.rem.toNat ≤ 2 ^ s.cfg.addrW := by
  decide

theorem witness_TailPacksTheLastBytes :
    ∀ rem ∈ [0, 1, 3, 4, 8, 9, 16],
      let s := busyState .tail 0 0 0 rem []
      s.fsm = .tail ∧ s.work.rem.toNat = rem ∧ rem ≤ 16 ∧ s.work.ptr.toNat + s.work.rem.toNat ≤ 2 ^ s.cfg.addrW := by decide

theorem witness_FinOneMixesTheTail : (busyState .fin1 0 0 0 3 []).fsm = .fin1 := by decide

theorem witness_FinTwoWritesTheDigest :
    (busyState .fin2 0 0 0 3 []).fsm = .fin2 ∧ (busyState .fin2 0 0 0 3 []).windowBroken = false := by decide

theorem witness_MixoWritesTheProduct : ({ State.reset with fsm := .mixo } : State).fsm = .mixo := by decide

theorem witness_BrokenWindowStillCompletes :
    ∃ s : State, s.fsm = .fin2 ∧ s.windowBroken = true :=
  ⟨{ busyState .fin2 0 0 0 3 [] with window := some { base := 0x100, len := 3, stable := false } }, by decide⟩

theorem witness_HostStoreChangesOneByte :
    ∃ s : State, s.moves = [.store 0x102 7] ∧ 0x102 < 2 ^ s.cfg.addrW ∧ Memory.wf s.input ∧
      ∃ w, s.window = some w ∧ w.base ≤ 0x102 ∧ 0x102 < w.base + w.len ∧ s.inputByte 0x102 ≠ 7 :=
  ⟨{ busyState .tail 0 0 0 3 [1, 2, 3] with moves := [.store 0x102 7] }, rfl, by decide, by decide, _, rfl, by decide⟩

theorem witness_MixerObeysItsLaws :
    ∃ s : State, memRead s.inputByte (s.work.ptr.toNat + 8) 8 = s.work.cs := ⟨State.reset, by decide⟩

theorem witness_ResetLeavesTheResetValues : Slot.result ≠ .id ∧ Slot.reserved 15 ≠ .id := by decide

theorem witness_ResetEventClearsTheBlock :
    ({ busyState .bulk 0 0 0 65 [] with moves := [.reset] } : State).moves = .reset :: [] := rfl

/-- A step from a reachable state that runs the ENGINE, for `EveryStepKeepsTheInvariant`, `NoReachableStepStops`,
`ReadsStayInTheWindow` (it reads) and `EveryEngineStepCountsDown`. -/
theorem witness_EveryStepKeepsTheInvariant :
    (busyState .tail 0 0 16 16 []).Inv ∧
    ∃ t, step (busyState .tail 0 0 16 16 []) = .next t ∧ t.reads ≠ [] ∧ (busyState .tail 0 0 16 16 []).status.busy = true ∧
      nextMove (busyState .tail 0 0 16 16 []) = .engine :=
  ⟨inv_busyState _ _ _ (by decide) rfl, _, rfl, by decide, by decide, rfl⟩

theorem witness_NoReachableStepStops :
    (busyState .bulk 0 0 0 65 []).Inv ∧ (nextMove (busyState .bulk 0 0 0 65 [])).Legal (busyState .bulk 0 0 0 65 []).cfg :=
  ⟨inv_busyState _ _ _ (by decide) rfl, trivial⟩

theorem witness_StatusNeverReadsBusyWithDone :
    (busyState .fold 0 0 64 64 []).Inv ∧ (idleState (Status.cleared.rejected .range) 0x100 3 [0x61, 0x62, 0x63]).Inv :=
  ⟨inv_busyState _ _ _ (by decide) rfl, inv_idleState⟩

theorem witness_ReadsStayInTheWindow :
    (busyState .medium 0 0 64 64 []).Inv ∧
    ∃ t, step (busyState .medium 0 0 64 64 []) = .next t ∧ 0x140 ∈ t.reads :=
  ⟨inv_busyState _ _ _ (by decide) rfl, _, rfl, by decide⟩

theorem witness_ReadSetsAreTheTable :
    ∀ x ∈ [(Fsm.bulk, 65), (.medium, 17), (.tail, 1), (.tail, 3), (.tail, 4), (.tail, 8), (.tail, 9), (.tail, 16)],
      (after (step (busyState x.1 0 0 0 x.2 []))).isSome = true := by decide +kernel

theorem witness_StepsUseOnlyTheirReadSet :
    ∃ t, engineStep (busyState .tail 0 0 0 3 [1, 2, 3]) = .next t ∧
      ∀ a ∈ t.reads, Memory.read (memoryOf 0x100 [1, 2, 3, 4]) a = (busyState .tail 0 0 0 3 [1, 2, 3]).inputByte a :=
  ⟨_, rfl, by decide⟩

theorem witness_TheBlockNeverWritesTheInput :
    ∃ t, step (busyState .bulk 0 0 0 65 []) = .next t ∧ ∀ a b, nextMove (busyState .bulk 0 0 0 65 []) ≠ .store a b :=
  ⟨_, rfl, fun _ _ h => by cases h⟩

theorem witness_OnlyCompletionWritesResult :
    ∃ s t : State, step s = .next t ∧ t.regs.result ≠ s.regs.result :=
  ⟨{ State.reset with fsm := .mixo, work := { State.reset.work with ta := 1, tb := 1 } }, _, rfl, by decide⟩

theorem witness_OperandWritesDoNotDisturbTheEngine :
    Slot.len ≠ .cmd ∧ ∃ t, engineStep (busyState .bulk 0 0 0 65 []) = .next t := ⟨by decide, _, rfl⟩

theorem witness_TransitionsAreTheTable :
    (∃ t, step (busyState .bulk 0 0 0 65 []) = .next t ∧ nextMove (busyState .bulk 0 0 0 65 []) = .engine) ∧
    ∃ t, step { State.reset with moves := [.host (.cmd64 0x3#64)] } = .next t ∧ t.fsm ≠ .idle :=
  ⟨⟨_, rfl, rfl⟩, _, rfl, by decide⟩

theorem witness_StatusChangesOnlyByCommandCompletionOrReset :
    (∃ t, step { State.reset with moves := [.host (.cmd64 0x4#64)] } = .next t ∧ t.status ≠ State.reset.status) ∧
    (∃ s t : State, step s = .next t ∧ s.status.busy = true ∧ nextMove s = .host (.cmd64 0x1#64)) ∧
    ∃ s t : State, step s = .next t ∧ s.doneOut = true ∧ t.doneOut = false :=
  ⟨⟨_, rfl, by decide⟩,
    ⟨{ busyState .bulk 0 0 0 65 [] with moves := [.host (.cmd64 0x1#64)] }, _, rfl, rfl, rfl⟩,
    { idleState Status.accepted.completed 0 0 [] with moves := [.host (.cmd64 0xF#64)] }, _, rfl, rfl, rfl⟩

/-- A STATUS read in the cycle of a completion, an illegal word in the cycle of a BULK step, and an ABORT in the cycle of FIN2
and of MIXO. -/
theorem witness_ReadsComeBeforeAndWritesAfterTheStep :
    decode (.port 0x01#5 7) = .ok (.regRead .status) ∧ (∀ slot, decode (.cmd64 0x4#64) ≠ .ok (.regRead slot)) ∧
    (∃ s : State, s.fsm = .fin2 ∧ s.moves = cycleMoves false (some (.port 0x01#5 7)) true ++ [] ∧
      ∃ u, engineStep { s with moves := [], reads := [] } = .next u) ∧
    (∃ s : State, s.fsm = .bulk ∧ s.moves = cycleMoves false (some (.cmd64 0x4#64)) true ++ [.reset] ∧
      ∃ u, engineStep { s with moves := [.reset], reads := [] } = .next u) ∧
    (∃ s : State, s.fsm = .fin2 ∧ s.windowBroken = false ∧ s.moves = cycleMoves false (some (encode .abort)) true ++ []) ∧
    ∃ s : State, s.fsm = .mixo ∧ s.moves = cycleMoves false (some (encode .abort)) true ++ [] :=
  ⟨rfl, (fun _ h => nomatch h),
    ⟨{ busyState .fin2 0 0 0 3 [] with moves := [.host (.port 0x01#5 7), .engine] }, rfl, rfl, _, rfl⟩,
    ⟨{ busyState .bulk 0 0 0 65 [] with moves := [.engine, .host (.cmd64 0x4#64), .reset] }, rfl, rfl, _, rfl⟩,
    ⟨{ busyState .fin2 0 0 0 3 [] with moves := [.engine, .host (.cmd64 0xF#64)] }, rfl, rfl, rfl⟩,
    { State.reset with fsm := .mixo, moves := [.engine, .host (.cmd64 0xF#64)] }, rfl, rfl⟩

theorem witness_EveryEngineStepCountsDown :
    (busyState .fold 0 0 64 1 []).Inv ∧ (busyState .fold 0 0 64 1 []).status.busy = true ∧
    (∃ t, step (busyState .fold 0 0 64 1 []) = .next t) :=
  ⟨inv_busyState _ _ _ (by decide) rfl, rfl, _, rfl⟩

/-- A HASH64 about to be issued, over a window of any length below 2^12. -/
theorem hash64_ready (len : Nat) (h : len < 4096) :
    ∃ s : State, s.cfg.Legal ∧ s.status.busy = false ∧ s.regs.src.toNat + s.regs.len.toNat ≤ 2 ^ s.cfg.addrW ∧
      s.moves = [.host (.cmd64 0x1#64)] ∧ s.regs.len.toNat = len := by
  have hlen : (BitVec.ofNat 64 len).toNat = len := by rw [BitVec.toNat_ofNat]; omega
  refine ⟨{ idleState Status.cleared 0x100 (BitVec.ofNat 64 len) [] with moves := [.host (.cmd64 0x1#64)] },
    (by decide : Config.standard.Legal), rfl, ?_, rfl, hlen⟩
  change 0x100 + (BitVec.ofNat 64 len).toNat ≤ 2 ^ 64
  omega

theorem witness_Hash64TakesItsStepsInOrder :
    ∃ s : State, s.cfg.Legal ∧ s.status.busy = false ∧ s.regs.src.toNat + s.regs.len.toNat ≤ 2 ^ s.cfg.addrW ∧
      s.moves = [.host (.cmd64 0x1#64)] ∧ s.regs.len.toNat = 0 := hash64_ready 0 (by decide)

theorem witness_Hash64ComputesTheDigest :
    ∃ s : State, s.cfg.Legal ∧ s.status.busy = false ∧ s.regs.src.toNat + s.regs.len.toNat ≤ 2 ^ s.cfg.addrW ∧
      s.moves = [.host (.cmd64 0x1#64)] ∧ s.regs.len.toNat = 128 := hash64_ready 128 (by decide)

theorem witness_EveryWindowByteIsRead :
    ∃ s : State, s.cfg.Legal ∧ s.status.busy = false ∧ s.regs.src.toNat + s.regs.len.toNat ≤ 2 ^ s.cfg.addrW ∧
      s.moves = [.host (.cmd64 0x1#64)] ∧ 64 < s.regs.len.toNat := by
  obtain ⟨s, h1, h2, h3, h4, h5⟩ := hash64_ready 65 (by decide)
  exact ⟨s, h1, h2, h3, h4, by omega⟩

/-- An accepted HASH64, an ENGINE step, and a store past the window: the first state is reachable, and BUSY has fallen after
the last of four moves. -/
theorem witness_EveryInterleavingGivesTheDigest :
    ∃ s : State, s.Inv ∧ s.status.busy = false ∧ s.regs.src.toNat + s.regs.len.toNat ≤ 2 ^ s.cfg.addrW ∧
      s.moves = .host (.port 0x12#5 0x1#64) :: [.store 0x103 7] ∧ commandWord (.port 0x12#5 0x1#64) = some 0x1#64 ∧
      (∀ m ∈ [Move.store 0x103 7], m.Undisturbing s.regs.src.toNat s.regs.len.toNat) ∧
      (∀ k, 1 ≤ k → k ≤ 4 → ∃ u, Sys2Proof.core.run k s = .next u ∧ u.status.busy = true) ∧
      ∃ t, Sys2Proof.core.run 5 s = .next t ∧ t.status.busy = false := by
  refine ⟨{ idleState (Status.cleared.rejected .range) 0x100 3 [0x61, 0x62, 0x63] with
    moves := [.host (.port 0x12#5 0x1#64), .store 0x103 7] }, ?_, rfl, by decide, rfl, rfl, ?_, fun k h1 h2 => ?_, _, rfl, rfl⟩
  · exact { inv_idleState with }
  · intro m hm
    rw [List.mem_singleton.1 hm]
    exact (by decide : ¬(0x100 ≤ 0x103 ∧ 0x103 < 0x100 + 3))
  · rcases (by omega : k = 1 ∨ k = 2 ∨ k = 3 ∨ k = 4) with rfl | rfl | rfl | rfl <;> exact ⟨_, rfl, rfl⟩

theorem witness_PairEqualsTheDigestOfItsBytes :
    (∃ s : State, s.status.busy = false ∧ s.moves = [.host (.cmd64 0x2#64)] ∧
      s.regs.opa = 0x0706050403020100#64 ∧ s.regs.opb = 0x0F0E0D0C0B0A0908#64) ∧
    ∃ u : State, u.cfg.Legal ∧ u.status.busy = false ∧ u.moves = [.host (.cmd64 0x1#64)] ∧ u.regs.len = 16 ∧
      u.regs.src.toNat + 16 ≤ 2 ^ u.cfg.addrW ∧ u.regs.seed = 0 ∧
      windowBytes u.input u.regs.src.toNat 16 = wordBytes 0x0706050403020100#64 ++ wordBytes 0x0F0E0D0C0B0A0908#64 :=
  ⟨⟨{ State.reset with
      regs := { State.reset.regs with opa := 0x0706050403020100#64, opb := 0x0F0E0D0C0B0A0908#64 }
      moves := [.host (.cmd64 0x2#64)] }, by decide⟩,
    { idleState Status.cleared 0x100 16 (pattern 16) with moves := [.host (.cmd64 0x1#64)] }, by decide +kernel⟩

theorem witness_MixCommandGivesTheMixerValue :
    ∃ s : State, s.status.busy = false ∧ s.moves = [.host (.cmd64 0x3#64)] :=
  ⟨{ State.reset with moves := [.host (.cmd64 0x3#64)] }, by decide⟩

end Sys2Proof.Tests
end

section
/-! SUPPORT. The proofs of the family 10_state: the register port's reads and writes, the state after reset, and the
invariant of every reachable state. Each operation of Machine/Ops, Hash, HostPort and Engine is shown once to keep the
invariant; a step then keeps it by `step_cases`. -/

namespace Sys2Proof.Machine

open Sys2Proof

/-! ### The register port -/

/-- 43_host_operations R136. -/
theorem exec_regRead (slot : Slot) (s : State) :
    exec (.regRead slot) s = .next { s with rdata := some (readSlot slot s) } :=
  exec_eq_next _ s

/-- 43_host_operations R135, for every slot but CMD. -/
theorem exec_regWrite_of_ne_cmd {slot : Slot} (h : slot ≠ .cmd) (v : Word) (s : State) :
    exec (.regWrite slot v) s = .next (writeOperand slot v s) := by
  rw [exec_eq_next, execState, if_neg h]

/-- Settles O24: such a write is a `writeOperand` that leaves every register as it is, and a read sets `rdata` alone. -/
theorem readOnlyAndReservedSlotsIgnoreWrites : Obligations.ReadOnlyAndReservedSlotsIgnoreWrites := by
  unfold Obligations.ReadOnlyAndReservedSlotsIgnoreWrites
  have hwrite : ∀ (s : State) (v : Word) (slot : Slot), slot ≠ .cmd → writeOperand slot v s = s →
      exec (.regWrite slot v) s = .next s := fun s v slot hcmd hsame => by rw [exec_regWrite_of_ne_cmd hcmd, hsame]
  exact ⟨fun s v => ⟨hwrite s v .id nofun rfl, hwrite s v .status nofun rfl, hwrite s v .result nofun rfl,
    fun n => hwrite s v (.reserved n) nofun rfl⟩, fun s slot => ⟨readSlot slot s, exec_regRead slot s⟩⟩

/-! ### Reset -/

/-- Every slot but ID reads 0 after reset (10_state R48). -/
theorem readSlot_reset {slot : Slot} (h : slot ≠ .id) : readSlot slot State.reset = 0 := by
  cases slot with
  | id => exact absurd rfl h
  | status => exact (by decide : Status.cleared.word = 0)
  | _ => rfl

/-- Settles O39: what a read returns is `readSlot`, which is 0 at reset for every slot but ID. -/
theorem resetLeavesTheResetValues : Obligations.ResetLeavesTheResetValues := by
  unfold Obligations.ResetLeavesTheResetValues
  refine ⟨rfl, rfl, exec_regRead .id State.reset, fun slot hslot => ?_⟩
  rw [exec_regRead, readSlot_reset hslot]

/-! ### The invariant while a HASH64 runs -/

/-- `k` bytes absorbed, fewer than are left: `ptr` moves on and `rem` goes down by `k`, and neither leaves its width
(41_digest_core R107, R111). -/
theorem Window.Running.absorb {w : Window} {c : Config} {work work' : Work} {k : Word} (hc : c.Legal)
    (hrun : w.Running (2 ^ c.addrW) work) (hk : k.toNat < work.rem.toNat)
    (hptr : work'.ptr = truncAddr c (work.ptr + k)) (hrem : work'.rem = work.rem - k) (hslen : work'.slen = work.slen) :
    w.Running (2 ^ c.addrW) work' ∧ work'.rem.toNat = work.rem.toNat - k.toNat := by
  obtain ⟨hbase, hend, hinside, hlen⟩ := hrun
  have hspace : 2 ^ c.addrW ≤ 2 ^ 64 := Nat.pow_le_pow_right (by decide) hc.2.1
  have hsum : (work.ptr + k).toNat = work.ptr.toNat + k.toNat := BitVec.toNat_add_of_lt (by omega)
  have hptr' : work'.ptr.toNat = work.ptr.toNat + k.toNat := by
    rw [hptr, truncAddr_of_lt c _ (by omega), hsum]
  have hrem' : work'.rem.toNat = work.rem.toNat - k.toNat := by
    rw [hrem, BitVec.toNat_sub_of_le (BitVec.le_def.2 hk.le)]
  exact ⟨⟨by omega, by omega, hinside, hslen ▸ hlen⟩, hrem'⟩

/-- No more is left than the window holds. -/
theorem Window.Running.rem_le {w : Window} {space : Nat} {work : Work} (hrun : w.Running space work) :
    work.rem.toNat ≤ w.len := by
  have hbase := hrun.base_le_ptr
  have hend := hrun.ptr_add_rem
  omega

section
variable {space : Nat} {work : Work} {window : Option Window}

theorem phaseInv_bulk : PhaseInv space .bulk work window ↔
    ∃ w, window = some w ∧ w.Running space work ∧ 65 ≤ work.rem.toNat := by
  cases window <;> simp [PhaseInv]

theorem phaseInv_fold : PhaseInv space .fold work window ↔
    ∃ w, window = some w ∧ w.Running space work ∧ 1 ≤ work.rem.toNat ∧ work.rem.toNat ≤ 64 ∧ 65 ≤ w.len := by
  cases window <;> simp [PhaseInv]

theorem phaseInv_medium : PhaseInv space .medium work window ↔
    ∃ w, window = some w ∧ w.Running space work ∧ 17 ≤ work.rem.toNat ∧ work.rem.toNat ≤ 64 := by
  cases window <;> simp [PhaseInv]

theorem phaseInv_tail : PhaseInv space .tail work window ↔
    ∃ w, window = some w ∧ w.Running space work ∧ work.rem.toNat ≤ 16 ∧ (work.rem.toNat = 0 ↔ w.len = 0) := by
  cases window <;> simp [PhaseInv]

end

/-- No clause looks at whether the window has changed. -/
theorem PhaseInv.withStable {space : Nat} {fsm : Fsm} {work : Work} {w : Window} (h : PhaseInv space fsm work (some w))
    (stable : Bool) : PhaseInv space fsm work (some { w with stable := stable }) := by
  cases fsm with
  | idle | mixo => exact h
  | bulk | fold | medium | tail | fin1 | fin2 =>
    obtain ⟨hrun, hbounds⟩ := h
    exact ⟨{ hrun with }, hbounds⟩

theorem phase_ne_idle (rem : Nat) : phase rem ≠ .idle := by
  rw [phase_eq]
  split_ifs <;> exact nofun

/-- The classifier's phase of a whole window has its bounds (41_digest_core R96, R107). -/
theorem phaseInv_phase {space len : Nat} {work : Work} {w : Window} (hrun : w.Running space work)
    (hrem : work.rem.toNat = len) (hlen : w.len = len) : PhaseInv space (phase len) work (some w) := by
  rw [phase_eq]
  split_ifs
  · exact ⟨hrun, by omega, by omega⟩
  · exact ⟨hrun, by omega, by omega⟩
  · exact ⟨hrun, by omega⟩

section
variable {space rem : Nat} {work : Work} {w : Window} (hrun : w.Running space work) (hrem : work.rem.toNat = rem)
  (hpos : 1 ≤ rem)
include hrun hrem hpos

/-- Where BULK goes on has its bounds (41_digest_core R98). -/
theorem phaseInv_bulk_or_fold (hlen : 65 ≤ w.len) :
    PhaseInv space (if rem > 64 then .bulk else .fold) work (some w) := by
  split_ifs
  · exact ⟨hrun, by omega⟩
  · exact ⟨hrun, by omega, by omega, hlen⟩

/-- Where FOLD and MEDIUM go on has its bounds (41_digest_core R99, R100). -/
theorem phaseInv_medium_or_tail (hmax : rem ≤ 64) :
    PhaseInv space (if rem > 16 then .medium else .tail) work (some w) := by
  have hlen := hrun.rem_le
  split_ifs
  · exact ⟨hrun, by omega, by omega⟩
  · exact ⟨hrun, by omega, by omega⟩

end

/-- The codes of 60_exceptions R152. -/
theorem CmdError.code_bounds (cause : CmdError) : cause.code ≠ 0 ∧ cause.code.toNat ≤ 2 := by
  cases cause <;> decide

/-! ### Changes that keep the invariant

Each names the fields it changes; `{ h with … }` takes the clauses of every other field from `h`. -/

section
variable {s : State} (h : s.Inv)
include h

theorem State.Inv.takeMove : (takeMove s).Inv := { h with }

theorem State.Inv.recordReads (addrs : List Nat) : (recordReads addrs s).Inv := { h with }

theorem State.Inv.dropCommand : (dropCommand s).Inv := { h with }

/-- New register values, SRC in its width (10_state R26). -/
theorem State.Inv.withRegs {regs : Regs} (hsrc : regs.src.toNat < s.spaceSize) : State.Inv { s with regs := regs } :=
  { h with src_inside := hsrc }

theorem State.Inv.writeOperand (slot : Slot) (v : Word) : (writeOperand slot v s).Inv := by
  cases slot with
  | src => exact h.withRegs (truncAddr_lt s.cfg v)
  | seed | len | opa | opb => exact h.withRegs h.src_inside
  | id | status | cmd | result | reserved => exact h

/-- A byte of the input space changed: the window keeps its bounds, and its `stable` flag is in no clause. -/
theorem State.Inv.hostStore {a : Nat} (b : Byte) (ha : a < s.spaceSize) : (hostStore a b s).Inv :=
  { h with
    input_wf := Memory.write_wf s.input a b h.input_wf
    input_inside := Memory.write_inside s.input a b _ ha h.input_inside
    phase_inv := by
      have hphase := h.phase_inv
      rw [hostStore_window, hostStore_fsm, hostStore_work, hostStore_spaceSize]
      cases hw : s.window with
      | none => rwa [hw] at hphase
      | some w =>
        rw [hw] at hphase
        rw [Option.map_some]
        split
        · exact hphase.withStable false
        · exact hphase }

/-- A rejection, which comes only while idle (60_exceptions R151, R152). -/
theorem State.Inv.raiseCmdError (cause : CmdError) (hb : s.status.busy = false) : (raiseCmdError cause s).Inv :=
  { h with
    err_iff := iff_of_true rfl cause.code_bounds.1
    errcode_named := cause.code_bounds.2
    err_done := fun _ => rfl
    busy_clean := fun hbusy => absurd (hb.symm.trans hbusy) nofun }

/-- A command accepted: the ENGINE enters a phase whose bounds hold (10_state R44). -/
theorem State.Inv.accept {work : Work} {fsm : Fsm} {window : Option Window} (hf : fsm ≠ .idle)
    (hptr : work.ptr.toNat < s.spaceSize) (hphase : PhaseInv s.spaceSize fsm work window) :
    State.Inv { s with work := work, status := Status.accepted, fsm := fsm, window := window } :=
  { h with
    busy_iff := iff_of_true rfl hf
    err_iff := iff_of_false nofun (· rfl)
    errcode_named := Nat.zero_le 2
    err_done := nofun
    busy_clean := fun _ => ⟨rfl, rfl⟩
    ptr_inside := hptr
    phase_inv := hphase }

/-- The ENGINE goes from one phase to the next. -/
theorem State.Inv.advance {work : Work} {fsm : Fsm} (hbusy : s.fsm ≠ .idle) (hf : fsm ≠ .idle)
    (hptr : work.ptr.toNat < s.spaceSize) (hphase : PhaseInv s.spaceSize fsm work s.window) :
    State.Inv { s with work := work, fsm := fsm } :=
  { h with
    busy_iff := iff_of_true (h.busy_iff.2 hbusy) hf
    ptr_inside := hptr
    phase_inv := hphase }

/-- A completion clears BUSY and keeps ERR and ERRCODE (41_digest_core R108). -/
theorem State.Inv.complete (v : Word) : (complete v s).Inv :=
  { h with
    busy_iff := iff_of_false nofun (· rfl)
    err_done := fun _ => rfl
    busy_clean := nofun
    phase_inv := trivial }

theorem State.Inv.completeDigest (v : Word) : (completeDigest v s).Inv := by
  have hdraw : State.Inv { s with draws := s.draws + 1 } := { h with }
  obtain ⟨-, heq⟩ | ⟨-, heq⟩ := completeDigest_cases v s
  · rw [heq]; exact h.complete v
  · rw [heq]; exact hdraw.complete _

/-- ABORT leaves the ENGINE IDLE and STATUS 0; of the working registers only the width of `ptr` is in a clause. -/
theorem State.Inv.abortCommand : (abortCommand s).Inv :=
  { h with
    busy_iff := iff_of_false nofun (· rfl)
    err_iff := iff_of_false nofun (· rfl)
    errcode_named := Nat.zero_le 2
    err_done := nofun
    busy_clean := nofun
    ptr_inside := truncAddr_lt s.cfg _
    phase_inv := trivial }

/-- A reset is an ABORT over registers that are 0. -/
theorem State.Inv.resetEvent : (resetEvent s).Inv :=
  (h.withRegs (regs := State.reset.regs) (Nat.two_pow_pos _)).abortCommand

/-! ### The commands -/

theorem State.Inv.unlessBusy {take : State → State} (htake : s.status.busy = false → (take s).Inv) :
    (unlessBusy take s).Inv := by
  obtain ⟨-, heq⟩ | ⟨hb, heq⟩ := unlessBusy_cases take s
  · rw [heq]; exact h.dropCommand
  · rw [heq]; exact htake hb

/-- The bounds of 41_digest_core R107 at acceptance, in each phase that the classifier gives. -/
theorem State.Inv.acceptHash64 (hb : s.status.busy = false) : (acceptHash64 s).Inv := by
  obtain ⟨-, heq⟩ | ⟨hfits, heq⟩ := acceptHash64_cases s
  · rw [heq]; exact h.raiseCmdError .range hb
  · rw [heq]
    exact h.accept (phase_ne_idle _) h.src_inside
      (phaseInv_phase ⟨Nat.le_refl _, rfl, hfits, rfl⟩ rfl rfl)

theorem State.Inv.acceptHash64Pair : (acceptHash64Pair s).Inv := h.accept nofun h.ptr_inside rfl

theorem State.Inv.acceptMix64 : (acceptMix64 s).Inv := h.accept nofun h.ptr_inside trivial

theorem State.Inv.illegalCommand : (illegalCommand s).Inv := h.unlessBusy (h.raiseCmdError .illegalCmd)

theorem State.Inv.dispatch (v : Word) : (dispatch v s).Inv := by
  obtain ⟨-, heq⟩ | ⟨-, heq⟩ | ⟨-, -, -, heq⟩ | ⟨-, hb, heq⟩ | ⟨-, -, heq⟩ | ⟨-, -, heq⟩ | ⟨-, -, -, -, -, hb, heq⟩ :=
    dispatch_cases v s <;> rw [heq]
  · exact h
  · exact h.abortCommand
  · exact h.dropCommand
  · exact h.acceptHash64 hb
  · exact h.acceptHash64Pair
  · exact h.acceptMix64
  · exact h.raiseCmdError .illegalCmd hb

theorem State.Inv.execState (i : Instr) : (execState i s).Inv := by
  cases i with
  | nop => exact h
  | hash64 => exact h.unlessBusy h.acceptHash64
  | hash64Pair => exact h.unlessBusy fun _ => h.acceptHash64Pair
  | mix64 => exact h.unlessBusy fun _ => h.acceptMix64
  | abort => exact h.abortCommand
  | regRead slot => exact { h with }
  | regWrite slot data =>
    rw [Machine.execState]
    split
    · exact h.dispatch data
    · exact h.writeOperand slot data

/-! ### The ENGINE's steps -/

theorem State.Inv.bulkStep (hf : s.fsm = .bulk) : (bulkStep s).Inv := by
  obtain ⟨w, hw, hrun, hmin⟩ := phaseInv_bulk.1 (hf ▸ h.phase_inv)
  obtain ⟨hrun', hrem'⟩ := hrun.absorb (work' := (Machine.bulkStep s).work) (k := 64) h.cfg_legal hmin rfl rfl rfl
  refine h.advance (by simp [hf]) (by split <;> exact nofun) (truncAddr_lt s.cfg _) ?_
  rw [hw]
  exact phaseInv_bulk_or_fold hrun' hrem' (Nat.le_sub_of_add_le' hmin) (hmin.trans hrun.rem_le)

theorem State.Inv.foldStep (hf : s.fsm = .fold) : (foldStep s).Inv := by
  obtain ⟨w, hw, hrun, hmin, hmax, -⟩ := phaseInv_fold.1 (hf ▸ h.phase_inv)
  refine h.advance (by simp [hf]) (by split <;> exact nofun) h.ptr_inside ?_
  rw [hw]
  exact phaseInv_medium_or_tail { hrun with } rfl hmin hmax

theorem State.Inv.mediumStep (hf : s.fsm = .medium) : (mediumStep s).Inv := by
  obtain ⟨w, hw, hrun, hmin, hmax⟩ := phaseInv_medium.1 (hf ▸ h.phase_inv)
  obtain ⟨hrun', hrem'⟩ := hrun.absorb (work' := (Machine.mediumStep s).work) (k := 16) h.cfg_legal hmin rfl rfl rfl
  refine h.advance (by simp [hf]) (by split <;> exact nofun) (truncAddr_lt s.cfg _) ?_
  rw [hw]
  exact phaseInv_medium_or_tail hrun' hrem' (Nat.le_sub_of_add_le' hmin) (Nat.sub_le_of_le_add (hmax.trans (by decide)))

theorem State.Inv.tailStep (hf : s.fsm = .tail) : (tailStep s).Inv := by
  obtain ⟨w, hw, hrun, hbounds⟩ := phaseInv_tail.1 (hf ▸ h.phase_inv)
  refine h.advance (by simp [hf]) nofun h.ptr_inside ?_
  rw [hw]
  exact ⟨{ hrun with }, hbounds⟩

/-- FIN1 and FIN2 have one clause: of a HASH64, or, with no window, of a HASH64_PAIR. -/
theorem State.Inv.fin1Step (hf : s.fsm = .fin1) : (fin1Step s).Inv := by
  have hphase := h.phase_inv
  rw [hf] at hphase
  refine h.advance (by simp [hf]) nofun h.ptr_inside ?_
  cases hw : s.window with
  | none =>
    rw [hw] at hphase
    exact hphase
  | some w =>
    rw [hw] at hphase
    obtain ⟨hrun, hbounds⟩ := hphase
    exact ⟨{ hrun with }, hbounds⟩

theorem State.Inv.engineEffect : (engineEffect s).Inv := by
  cases hf : s.fsm <;> simp only [Machine.engineEffect, hf]
  case idle => exact h
  case bulk => exact h.bulkStep hf
  case fold => exact h.foldStep hf
  case medium => exact h.mediumStep hf
  case tail => exact h.tailStep hf
  case fin1 => exact h.fin1Step hf
  case fin2 => exact h.completeDigest _
  case mixo => exact h.complete _

end

/-- Settles O42: each of the five things a step can be keeps the invariant of the state with the move taken. -/
theorem everyStepKeepsTheInvariant : Obligations.EveryStepKeepsTheInvariant := by
  unfold Obligations.EveryStepKeepsTheInvariant
  intro s t h hstep
  obtain ⟨-, -, rfl⟩ | ⟨e, i, -, -, rfl⟩ | ⟨e, r, -, -, rfl⟩ | ⟨-, rfl⟩ | ⟨a, b, -, ha, rfl⟩ := step_cases hstep
  · exact h.takeMove.engineEffect.recordReads _
  · exact h.takeMove.execState i
  · exact h.takeMove.illegalCommand
  · exact h.takeMove.resetEvent
  · exact h.takeMove.hostStore b ha

end Sys2Proof.Machine
end

section
/-! SUPPORT. The proofs of the family 20_memory: the little-endian value of a MemRead, the addresses that a step reads, and
what no move but a store changes. -/

namespace Sys2Proof.Machine

open Sys2Proof

/-! ### MemRead (20_memory R53, R54) -/

/-- The recursion of `leValue` as the sum of R53. -/
theorem leValue_eq_sum (byteAt : Nat → Byte) (n : Nat) : ∀ addr,
    leValue byteAt addr n = ((List.range n).map fun k => (byteAt (addr + k)).toNat * 2 ^ (8 * k)).sum := by
  induction n with
  | zero => intro addr; rfl
  | succ n ih =>
    intro addr
    have hshift : ∀ k, (byteAt (addr + (k + 1))).toNat * 2 ^ (8 * (k + 1)) =
        256 * ((byteAt (addr + 1 + k)).toNat * 2 ^ (8 * k)) := fun k => by
      rw [Nat.add_assoc addr 1 k, Nat.add_comm 1 k, Nat.mul_succ, pow_add]
      ring
    simp [leValue, ih, List.range_succ_eq_map, Function.comp_def, hshift, List.sum_map_mul_left]

/-- The low bytes of a value are the value of its first addresses. -/
theorem leValue_add (byteAt : Nat → Byte) (m n : Nat) : ∀ addr,
    leValue byteAt addr (m + n) = leValue byteAt addr m + 256 ^ m * leValue byteAt (addr + m) n := by
  induction m with
  | zero => simp [leValue]
  | succ m ih =>
    intro addr
    rw [Nat.succ_add, leValue, leValue, ih, Nat.add_assoc addr 1 m, Nat.add_comm 1 m, pow_succ]
    ring

/-- Up to 8 bytes fit a word: the zero extension drops nothing. -/
theorem memRead_toNat (byteAt : Nat → Byte) (addr : Nat) {n : Nat} (hn : n ≤ 8) :
    (memRead byteAt addr n).toNat = leValue byteAt addr n := by
  have hfits : leValue byteAt addr n < 2 ^ 64 :=
    (leValue_lt byteAt n addr).trans_le (Nat.pow_le_pow_right (by decide : 0 < 256) hn)
  rw [memRead, BitVec.toNat_ofNat, Nat.mod_eq_of_lt hfits]

/-- Settles O38: the sum is `leValue_eq_sum`; the upper 4 bytes of an 8-byte read are a multiple of 2^32. -/
theorem memReadIsLittleEndian : Obligations.MemReadIsLittleEndian := by
  unfold Obligations.MemReadIsLittleEndian
  refine fun byteAt addr => ⟨fun n hn => ?_, BitVec.eq_of_toNat_eq ?_⟩
  · have hle : n ≤ 8 := (by decide : ∀ n ∈ [1, 4, 8], n ≤ 8) n hn
    rw [memRead_toNat byteAt addr hle, leValue_eq_sum]
  · have hlow : leValue byteAt addr 4 < 2 ^ 32 := leValue_lt byteAt 4 addr
    have hsplit : leValue byteAt addr 8 = leValue byteAt addr 4 + 2 ^ 32 * leValue byteAt (addr + 4) 4 :=
      leValue_add byteAt 4 4 addr
    rw [BitVec.toNat_setWidth, BitVec.toNat_setWidth, memRead_toNat byteAt addr (by decide),
      memRead_toNat byteAt addr (by decide)]
    omega

/-! ### What the block leaves alone -/

/-- Two states that differ in the block's own fields at most: the parameters, the input space, the moves to come and the
record of reads are the same. Everything the block does by itself relates its states so. -/
structure State.SameOutside (s t : State) : Prop where
  cfg : t.cfg = s.cfg
  input : t.input = s.input
  moves : t.moves = s.moves
  reads : t.reads = s.reads

section
variable (s : State)

theorem State.SameOutside.refl : s.SameOutside s := ⟨rfl, rfl, rfl, rfl⟩

theorem sameOutside_writeOperand (slot : Slot) (v : Word) : s.SameOutside (writeOperand slot v s) :=
  ⟨writeOperand_cfg s slot v, writeOperand_input s slot v, writeOperand_moves s slot v, writeOperand_reads s slot v⟩

theorem sameOutside_acceptHash64 : s.SameOutside (acceptHash64 s) := by
  obtain ⟨-, heq⟩ | ⟨-, heq⟩ := acceptHash64_cases s <;> rw [heq] <;> exact ⟨rfl, rfl, rfl, rfl⟩

theorem sameOutside_unlessBusy {take : State → State} (h : s.SameOutside (take s)) :
    s.SameOutside (unlessBusy take s) := by
  obtain ⟨-, heq⟩ | ⟨-, heq⟩ := unlessBusy_cases take s <;> rw [heq]
  · exact ⟨rfl, rfl, rfl, rfl⟩
  · exact h

theorem sameOutside_illegalCommand : s.SameOutside (illegalCommand s) :=
  sameOutside_unlessBusy s ⟨rfl, rfl, rfl, rfl⟩

/-- Of what dispatch can do, HASH64 alone branches again. -/
theorem sameOutside_dispatch (v : Word) : s.SameOutside (dispatch v s) := by
  obtain ⟨-, heq⟩ | ⟨-, heq⟩ | ⟨-, -, -, heq⟩ | ⟨-, -, heq⟩ | ⟨-, -, heq⟩ | ⟨-, -, heq⟩ | ⟨-, -, -, -, -, -, heq⟩ :=
    dispatch_cases v s <;> rw [heq]
  case inr.inr.inr.inl => exact sameOutside_acceptHash64 s
  all_goals exact ⟨rfl, rfl, rfl, rfl⟩

/-- No instruction touches what is outside the block. -/
theorem sameOutside_execState (i : Instr) : s.SameOutside (execState i s) := by
  cases i with
  | nop => exact .refl s
  | hash64 => exact sameOutside_unlessBusy s (sameOutside_acceptHash64 s)
  | hash64Pair | mix64 => exact sameOutside_unlessBusy s ⟨rfl, rfl, rfl, rfl⟩
  | abort | regRead => exact ⟨rfl, rfl, rfl, rfl⟩
  | regWrite slot data =>
    rw [execState]
    split
    · exact sameOutside_dispatch s data
    · exact sameOutside_writeOperand s slot data

theorem sameOutside_completeDigest (v : Word) : s.SameOutside (completeDigest v s) := by
  obtain ⟨-, heq⟩ | ⟨-, heq⟩ := completeDigest_cases v s <;> rw [heq] <;> exact ⟨rfl, rfl, rfl, rfl⟩

/-- No ENGINE step does either; its reads are recorded by `engineStep`. -/
theorem sameOutside_engineEffect : s.SameOutside (engineEffect s) := by
  cases hf : s.fsm <;> simp only [engineEffect, hf]
  case fin2 => exact sameOutside_completeDigest s _
  all_goals exact ⟨rfl, rfl, rfl, rfl⟩

end

/-- Settles O48: the block's own effects leave what is outside it, and `step_cases` names the stores apart. -/
theorem theBlockNeverWritesTheInput : Obligations.TheBlockNeverWritesTheInput := by
  unfold Obligations.TheBlockNeverWritesTheInput
  intro s t hstep hstore
  have hinput : t.input = s.input := by
    obtain ⟨-, -, rfl⟩ | ⟨e, i, -, -, rfl⟩ | ⟨e, r, -, -, rfl⟩ | ⟨-, rfl⟩ | ⟨a, b, hm, -, -⟩ := step_cases hstep
    · exact (sameOutside_engineEffect (takeMove s)).input
    · exact (sameOutside_execState (takeMove s) i).input
    · exact (sameOutside_illegalCommand (takeMove s)).input
    · rfl
    · exact absurd hm (hstore a b)
  exact ⟨hinput, fun a => by rw [State.inputByte, hinput, State.inputByte]⟩

/-! ### The addresses that a step reads (20_memory R55, R56) -/

/-- The bytes not yet absorbed are in the window, and so in the input space (41_digest_core R111). -/
theorem Window.Running.unabsorbed_inside {w : Window} {space a : Nat} {work : Work} (hrun : w.Running space work)
    (hlow : work.ptr.toNat ≤ a) (hhigh : a < work.ptr.toNat + work.rem.toNat) :
    w.base ≤ a ∧ a < w.base + w.len ∧ a < space := by
  obtain ⟨hbase, hend, hinside, -⟩ := hrun
  omega

theorem mem_readSet_bulk {s : State} (hf : s.fsm = .bulk) (a : Nat) :
    a ∈ readSet s ↔ s.work.ptr.toNat ≤ a ∧ a < s.work.ptr.toNat + 64 := by
  simp [readSet, hf]

theorem mem_readSet_medium {s : State} (hf : s.fsm = .medium) (a : Nat) :
    a ∈ readSet s ↔ s.work.ptr.toNat ≤ a ∧ a < s.work.ptr.toNat + 16 := by
  simp [readSet, hf]

/-- A state whose ENGINE step reads has a HASH64 in progress, and the step reads bytes that it has not absorbed: `rem` is
at least the block's size in BULK and MEDIUM, and TAIL reads the tail. -/
theorem State.Inv.readSet_unabsorbed {s : State} (h : s.Inv) {a : Nat} (ha : a ∈ readSet s) :
    s.fsm ≠ .idle ∧ ∃ w, s.window = some w ∧ w.Running s.spaceSize s.work ∧
      s.work.ptr.toNat ≤ a ∧ a < s.work.ptr.toNat + s.work.rem.toNat := by
  have hphase := h.phase_inv
  cases hf : s.fsm <;> rw [hf] at hphase
  case bulk =>
    obtain ⟨w, hw, hrun, hmin⟩ := phaseInv_bulk.1 hphase
    obtain ⟨hlow, hhigh⟩ := (mem_readSet_bulk hf a).1 ha
    exact ⟨nofun, w, hw, hrun, hlow, by omega⟩
  case medium =>
    obtain ⟨w, hw, hrun, hmin, -⟩ := phaseInv_medium.1 hphase
    obtain ⟨hlow, hhigh⟩ := (mem_readSet_medium hf a).1 ha
    exact ⟨nofun, w, hw, hrun, hlow, by omega⟩
  case tail =>
    obtain ⟨w, hw, hrun, hmax, -⟩ := phaseInv_tail.1 hphase
    exact ⟨nofun, w, hw, hrun, readSet_tail_bounds s hf hmax a ha⟩
  all_goals simp [readSet, hf] at ha

/-- Only an ENGINE step reads. -/
theorem step_reads {s t : State} (h : step s = .next t) : t.reads = [] ∨ t.reads = readSet (takeMove s) := by
  obtain ⟨-, -, rfl⟩ | ⟨e, i, -, -, rfl⟩ | ⟨e, r, -, -, rfl⟩ | ⟨-, rfl⟩ | ⟨a, b, -, -, rfl⟩ := step_cases h
  · exact .inr rfl
  · exact .inl (sameOutside_execState (takeMove s) i).reads
  · exact .inl (sameOutside_illegalCommand (takeMove s)).reads
  · exact .inl rfl
  · exact .inl rfl

/-- Settles O45: what a step reads is not yet absorbed, and the window of the invariant holds all of that. -/
theorem readsStayInTheWindow : Obligations.ReadsStayInTheWindow := by
  unfold Obligations.ReadsStayInTheWindow
  intro s t h hstep a ha
  obtain hreads | hreads := step_reads hstep <;> rw [hreads] at ha
  · exact absurd ha List.not_mem_nil
  · obtain ⟨hbusy, w, hw, hrun, hlow, hhigh⟩ := h.takeMove.readSet_unabsorbed ha
    exact ⟨h.busy_iff.2 hbusy, w, hw, hrun.unabsorbed_inside hlow hhigh⟩

end Sys2Proof.Machine
end

section
/-! SUPPORT. The proofs of the family 30_encoding: what a slot index and an ENGINE state code name. -/

namespace Sys2Proof

/-! ### Slot indices (30_encoding R76, 10_state R21) -/

/-- The slots that are registers, each at its own index (10_state R21). -/
def Slot.registers : List Slot := [.id, .status, .cmd, .seed, .src, .len, .opa, .opb, .result]

theorem Slot.registers_getElem?_toNat :
    ∀ i : BitVec 4, i.toNat ≤ 8 → Slot.registers[i.toNat]? = some (Slot.ofIndex i) := by
  decide

theorem Slot.ofIndex_of_gt {i : BitVec 4} (h : 8 < i.toNat) : Slot.ofIndex i = .reserved i.toNat := by
  rw [Slot.ofIndex]
  split
  case h_10 => rfl
  all_goals omega

theorem Slot.wellFormed_of_mem_registers : ∀ slot ∈ Slot.registers, slot.wellFormed = true := by
  decide

/-- A 4-bit index is at most 15, so that no reserved slot is out of its range. -/
theorem Slot.wellFormed_ofIndex (i : BitVec 4) : (Slot.ofIndex i).wellFormed = true := by
  obtain hgt | hle := Nat.lt_or_ge 8 i.toNat
  · have hlt : i.toNat < 16 := i.isLt
    rw [Slot.ofIndex_of_gt hgt, Slot.wellFormed, Bool.and_eq_true, decide_eq_true_eq, decide_eq_true_eq]
    omega
  · exact Slot.wellFormed_of_mem_registers _ (List.mem_of_getElem? (Slot.registers_getElem?_toNat i hle))

theorem decode_port (header : BitVec 5) (data : Word) :
    decode (.port header data) = .ok (decodePort header data) := rfl

/-- Settles O4: the slot is `Slot.ofIndex` of bits 3:0, a register up to 8 and reserved above. -/
theorem everyHeaderIsATransaction : Obligations.EveryHeaderIsATransaction := by
  unfold Obligations.EveryHeaderIsATransaction
  intro header data
  refine ⟨Slot.ofIndex (header.extractLsb' 0 4), Slot.wellFormed_ofIndex _, decode_port header data, ?_⟩
  dsimp only
  split
  case isTrue hle => exact Slot.registers_getElem?_toNat _ hle
  case isFalse hgt => exact Slot.ofIndex_of_gt (Nat.lt_of_not_le hgt)

end Sys2Proof

namespace Sys2Proof.Machine

/-! ### ENGINE state codes (30_encoding R80) -/

@[simp] theorem Fsm.ofCode_code (f : Fsm) : Fsm.ofCode f.code = f := by
  cases f <;> rfl

@[simp] theorem Fsm.code_ofCode : ∀ c : BitVec 3, (Fsm.ofCode c).code = c := by
  decide

/-- Settles O6: `Fsm.code` and `Fsm.ofCode` are inverse to each other, and the codes are counted off. -/
theorem everyStateCodeNamesAState : Obligations.EveryStateCodeNamesAState := by
  unfold Obligations.EveryStateCodeNamesAState
  exact ⟨Fsm.code_ofCode, Fsm.ofCode_code, rfl⟩

end Sys2Proof.Machine
end

section
/-! SUPPORT. The proofs of the family 40_mixing_primitive: the mixer as a fold of two halves, its laws, and MIXO. -/

namespace Sys2Proof.Machine

open Sys2Proof

/-! ### The mixer (40_mixing_primitive R85, R89) -/

/-- The fold of R85: however the exact product is split into two words, `mix64` is their XOR. -/
theorem mix64_eq_xor_of_mul {a b hi lo : Word} (h : a.toNat * b.toNat = 2 ^ 64 * hi.toNat + lo.toNat) :
    mix64 a b = hi ^^^ lo := by
  have hlo : lo.toNat < 2 ^ 64 := lo.isLt
  have hdiv : a.toNat * b.toNat / 2 ^ 64 = hi.toNat := by omega
  have hmod : a.toNat * b.toNat % 2 ^ 64 = lo.toNat := by omega
  simp only [mix64, hdiv, hmod, BitVec.ofNat_toNat, BitVec.setWidth_eq]

theorem mix64_comm (a b : Word) : mix64 a b = mix64 b a := by
  simp only [mix64, Nat.mul_comm a.toNat b.toNat]

@[simp] theorem mix64_zero_right (a : Word) : mix64 a 0#64 = 0#64 :=
  mix64_eq_xor_of_mul (hi := 0#64) (lo := 0#64) (Nat.mul_zero _)

@[simp] theorem mix64_zero_left (a : Word) : mix64 0#64 a = 0#64 := by
  rw [mix64_comm, mix64_zero_right]

@[simp] theorem mix64_one_left (a : Word) : mix64 1#64 a = a := by
  have hmul : (1#64).toNat * a.toNat = 2 ^ 64 * (0#64).toNat + a.toNat := by simp
  rw [mix64_eq_xor_of_mul hmul]
  exact BitVec.zero_xor

/-- The bits that a left shift by `k` drops and those that it keeps occupy disjoint bits of a rotation. -/
theorem shiftRight_xor_shiftLeft (a : Word) {k : Nat} (hk : k ≤ 63) :
    (a >>> (64 - k)) ^^^ (a <<< k) = a.rotateLeft k := by
  have hmod : k % 64 = k := Nat.mod_eq_of_lt (by omega)
  ext i hi
  obtain hlow | hhigh := Nat.lt_or_ge i k
  · simp [BitVec.getElem_rotateLeft, hmod, hlow, BitVec.getLsbD_eq_getElem (show 64 - k + i < 64 by omega)]
  · have hout : 64 ≤ 64 - k + i := by omega
    simp [BitVec.getElem_rotateLeft, hmod, hhigh.not_gt, BitVec.getLsbD_of_ge a _ hout]

theorem mix64_twoPow (a : Word) {k : Nat} (hk : k ≤ 63) : mix64 a (BitVec.twoPow 64 k) = a.rotateLeft k := by
  have hpow : 2 ^ 64 = 2 ^ (64 - k) * 2 ^ k := by rw [← Nat.pow_add, Nat.sub_add_cancel (by omega)]
  have hhigh : (a >>> (64 - k)).toNat = a.toNat * 2 ^ k / 2 ^ 64 := by
    rw [BitVec.toNat_ushiftRight, Nat.shiftRight_eq_div_pow, hpow, Nat.mul_div_mul_right _ _ (Nat.two_pow_pos k)]
  have hlow : (a <<< k).toNat = a.toNat * 2 ^ k % 2 ^ 64 := by
    rw [BitVec.toNat_shiftLeft, Nat.shiftLeft_eq]
  have hmul : a.toNat * (BitVec.twoPow 64 k).toNat = 2 ^ 64 * (a >>> (64 - k)).toNat + (a <<< k).toNat := by
    rw [BitVec.toNat_twoPow_of_lt (by omega), hhigh, hlow, Nat.div_add_mod]
  rw [mix64_eq_xor_of_mul hmul, shiftRight_xor_shiftLeft a hk]

/-- (2^64 - 1)^2 is 2^64 - 2 in the upper half and 1 in the lower. -/
theorem mix64_max : mix64 0xFFFFFFFFFFFFFFFF#64 0xFFFFFFFFFFFFFFFF#64 = 0xFFFFFFFFFFFFFFFF#64 :=
  mix64_eq_xor_of_mul (hi := 0xFFFFFFFFFFFFFFFE#64) (lo := 1) (by decide)

/-- Rotating 3 * 3 by 63 is not 3 times 3 rotated by 63. -/
theorem mix64_not_assoc : mix64 (mix64 3 3) 0x8000000000000000#64 ≠ mix64 3 (mix64 3 0x8000000000000000#64) := by
  decide

/-- The corner of R89: where the second word read equals `cs`, it cancels it, and the lane is lost. -/
theorem mediumStep_cs_of_second_word_eq {s : State}
    (h : memRead s.inputByte (s.work.ptr.toNat + 8) 8 = s.work.cs) : (mediumStep s).work.cs = 0 := by
  have hcs : (mediumStep s).work.cs = mix64 (memRead s.inputByte s.work.ptr.toNat 8 ^^^ pi1)
      (memRead s.inputByte (s.work.ptr.toNat + 8) 8 ^^^ s.work.cs) := rfl
  rw [hcs, h, BitVec.xor_self]
  exact mix64_zero_right _

/-- Settles O36: 128 bits hold the product of two words, so that its halves are a split of the exact product. -/
theorem mixerFoldsTheFullProduct : Obligations.MixerFoldsTheFullProduct := by
  unfold Obligations.MixerFoldsTheFullProduct
  intro a b p
  have hfits : a.toNat * b.toNat < 2 ^ 64 * 2 ^ 64 := Nat.mul_lt_mul'' a.isLt b.isLt
  have hp : p.toNat = a.toNat * b.toNat := by
    simp only [p, BitVec.toNat_mul, BitVec.toNat_setWidth_of_le (show 64 ≤ 128 by decide)]
    exact Nat.mod_eq_of_lt hfits
  refine mix64_eq_xor_of_mul ?_
  rw [BitVec.extractLsb'_toNat, BitVec.extractLsb'_toNat, hp, Nat.shiftRight_eq_div_pow, Nat.shiftRight_zero]
  omega

/-- Settles O37, law by law; 3, 3 and 2^63 do not associate. -/
theorem mixerObeysItsLaws : Obligations.MixerObeysItsLaws := by
  unfold Obligations.MixerObeysItsLaws
  exact ⟨mix64_comm, fun a => ⟨mix64_zero_left a, mix64_zero_right a⟩, mix64_one_left,
    fun a _ hk => mix64_twoPow a hk, mix64_max, ⟨3, 3, 0x8000000000000000#64, mix64_not_assoc⟩, fun _ => mediumStep_cs_of_second_word_eq⟩

/-! ### MIXO (40_mixing_primitive R91, 41_digest_core R108) -/

theorem engineEffect_mixo {s : State} (hf : s.fsm = .mixo) :
    engineEffect s = complete (mix64 s.work.ta s.work.tb) s := by
  simp only [engineEffect, hf, mixoStep]

/-- Settles O33: MIXO has no guard and reads nothing, so that the step is its completion. -/
theorem mixoWritesTheProduct : Obligations.MixoWritesTheProduct := by
  unfold Obligations.MixoWritesTheProduct
  intro s hf
  have hguard : engineGuard s = none := by simp only [engineGuard, hf]
  have hreads : readSet s = [] := by simp only [readSet, hf]
  rw [engineStep_of_guard hguard, hreads, engineEffect_mixo hf]
  rfl

end Sys2Proof.Machine
end

section
/-! SUPPORT. The proofs of the family 41_digest_core: the classifier, the ENGINE's steps from TAIL on, and the ENGINE's
transitions. -/

namespace Sys2Proof.Machine

open Sys2Proof

/-! ### The classifier (41_digest_core R96, 30_encoding R81) -/

section
variable {rem : Nat}

theorem lengthClass_t1to3 (hmin : 1 ≤ rem) (hmax : rem ≤ 3) : lengthClass rem = .t1to3 := by
  rw [lengthClass, if_neg (by omega), if_pos hmax]

theorem lengthClass_t4to8 (hmin : 4 ≤ rem) (hmax : rem ≤ 8) : lengthClass rem = .t4to8 := by
  rw [lengthClass, if_neg (by omega), if_neg (by omega), if_pos hmax]

theorem lengthClass_t9to16 (hmin : 9 ≤ rem) (hmax : rem ≤ 16) : lengthClass rem = .t9to16 := by
  rw [lengthClass, if_neg (by omega), if_neg (by omega), if_neg (by omega), if_pos hmax]

theorem lengthClass_med (hmin : 17 ≤ rem) (hmax : rem ≤ 64) : lengthClass rem = .med := by
  rw [lengthClass, if_neg (by omega), if_neg (by omega), if_neg (by omega), if_neg (by omega), if_pos hmax]

theorem lengthClass_bulk (hmin : 65 ≤ rem) : lengthClass rem = .bulk := by
  rw [lengthClass, if_neg (by omega), if_neg (by omega), if_neg (by omega), if_neg (by omega), if_neg (by omega)]

end

/-- Codes 6 and 7 name no class (30_encoding R81). -/
theorem LengthClass.code_ne_six_and_ne_seven (c : LengthClass) : c.code ≠ 6 ∧ c.code ≠ 7 := by
  cases c <;> decide

/-- Settles O7: each range of lengths has its class, and both the code and the phase are functions of the class. -/
theorem classifierFollowsItsThresholds : Obligations.ClassifierFollowsItsThresholds := by
  unfold Obligations.ClassifierFollowsItsThresholds
  intro rem
  refine ⟨?_, fun hmin hmax => ?_, fun hmin hmax => ?_, fun hmin hmax => ?_, fun hmin hmax => ?_, fun hmin => ?_,
    (lengthClass rem).code_ne_six_and_ne_seven⟩
  · rintro rfl
    exact ⟨rfl, rfl⟩
  · simp [phase, lengthClass_t1to3 hmin hmax, LengthClass.code]
  · simp [phase, lengthClass_t4to8 hmin hmax, LengthClass.code]
  · simp [phase, lengthClass_t9to16 hmin hmax, LengthClass.code]
  · simp [phase, lengthClass_med hmin hmax, LengthClass.code]
  · simp [phase, lengthClass_bulk hmin, LengthClass.code]

/-! ### FIN1 and FIN2 (41_digest_core R103, R104, R108) -/

/-- Outside BULK, MEDIUM and TAIL the ENGINE has no guard and reads nothing (20_memory R55). -/
theorem engineStep_of_no_read {s : State} (hbulk : s.fsm ≠ .bulk) (hmedium : s.fsm ≠ .medium) (htail : s.fsm ≠ .tail) :
    engineStep s = .next (recordReads [] (engineEffect s)) := by
  obtain ⟨hreads, hguard⟩ : readSet s = [] ∧ engineGuard s = none := by
    cases hf : s.fsm
    case bulk => exact absurd hf hbulk
    case medium => exact absurd hf hmedium
    case tail => exact absurd hf htail
    case idle | fold | fin1 | fin2 | mixo => simp only [readSet, engineGuard, hf, and_self]
  rw [engineStep_of_guard hguard, hreads]

theorem engineStep_fin1 {s : State} (hf : s.fsm = .fin1) : engineStep s = .next (recordReads [] (fin1Step s)) := by
  rw [engineStep_of_no_read (by simp [hf]) (by simp [hf]) (by simp [hf]), engineEffect, hf]

theorem engineStep_fin2 {s : State} (hf : s.fsm = .fin2) : engineStep s = .next (recordReads [] (fin2Step s)) := by
  rw [engineStep_of_no_read (by simp [hf]) (by simp [hf]) (by simp [hf]), engineEffect, hf]

/-- Settles O31: FIN1 reads nothing, so that the step is `fin1Step` with its constant pi1 written out. -/
theorem finOneMixesTheTail : Obligations.FinOneMixesTheTail := by
  unfold Obligations.FinOneMixesTheTail
  exact fun s hf => engineStep_fin1 hf

/-- Without a broken window a digest completes with its own value. -/
theorem completeDigest_of_windowBroken_false {s : State} (h : s.windowBroken = false) (v : Word) :
    completeDigest v s = complete v s := by
  obtain ⟨-, heq⟩ | ⟨⟨w, hw, hstable⟩, -⟩ := completeDigest_cases v s
  · exact heq
  · simp [State.windowBroken, hw, hstable] at h

/-- Settles O32: where the window has not changed, FIN2 is the completion with the mixed value. -/
theorem finTwoWritesTheDigest : Obligations.FinTwoWritesTheDigest := by
  unfold Obligations.FinTwoWritesTheDigest
  intro s hf hwindow
  rw [engineStep_fin2 hf, fin2Step, completeDigest_of_windowBroken_false hwindow]
  rfl

/-! ### TAIL (41_digest_core R101, R102) -/

/-- The reads of TAIL overlap so that together they are the whole tail (20_memory R55, R60). -/
theorem mem_readSet_tail {s : State} (hf : s.fsm = .tail) (hr : s.work.rem.toNat ≤ 16) (a : Nat) :
    a ∈ readSet s ↔ s.work.ptr.toNat ≤ a ∧ a < s.work.ptr.toNat + s.work.rem.toNat := by
  refine ⟨readSet_tail_bounds s hf hr a, fun ⟨hlow, hhigh⟩ => ?_⟩
  simp only [readSet, hf, lengthClass]
  split_ifs
  all_goals simp only [mem_addressSet, mem_readSpan, List.mem_append, List.mem_cons, List.not_mem_nil]
  all_goals omega

/-- TAIL has its step where the tail is in the input space. -/
theorem engineStep_tail {s : State} (hf : s.fsm = .tail) (hr : s.work.rem.toNat ≤ 16)
    (hinside : s.work.ptr.toNat + s.work.rem.toNat ≤ s.spaceSize) :
    engineStep s = .next (recordReads (readSet s) (tailStep s)) := by
  have hmissing : missingAddress s = none := (missingAddress_eq_none s).2 fun a ha =>
    ((mem_readSet_tail hf hr a).1 ha).2.trans_le hinside
  have hguard : engineGuard s = none := by simp only [engineGuard, hf, if_neg (Nat.not_lt.2 hr), hmissing]
  rw [engineStep_of_guard hguard, engineEffect, hf]

/-- Three values of a byte each occupy disjoint bits of the word that R101 packs them into. -/
theorem toNat_pack_three {x y z : Word} (hx : x.toNat < 2 ^ 8) (hy : y.toNat < 2 ^ 8) (hz : z.toNat < 2 ^ 8) :
    ((x <<< 16) ||| (y <<< 8) ||| z).toNat = x.toNat * 2 ^ 16 + y.toNat * 2 ^ 8 + z.toNat := by
  have hxy : x.toNat <<< 16 ||| y.toNat <<< 8 = (x.toNat <<< 8 + y.toNat) <<< 8 := by
    rw [← Nat.shiftLeft_add_eq_or_of_lt (by rw [Nat.shiftLeft_eq]; omega)]
    simp only [Nat.shiftLeft_eq]
    omega
  have hx16 : (x <<< 16).toNat = x.toNat <<< 16 := by
    rw [BitVec.toNat_shiftLeft, Nat.mod_eq_of_lt (by rw [Nat.shiftLeft_eq]; omega)]
  have hy8 : (y <<< 8).toNat = y.toNat <<< 8 := by
    rw [BitVec.toNat_shiftLeft, Nat.mod_eq_of_lt (by rw [Nat.shiftLeft_eq]; omega)]
  rw [BitVec.toNat_or, BitVec.toNat_or, hx16, hy8, hxy, ← Nat.shiftLeft_add_eq_or_of_lt hz]
  simp only [Nat.shiftLeft_eq]
  omega

section
variable (byteAt : Nat → Byte) (p : Nat)

theorem memRead_one_toNat (addr : Nat) : (memRead byteAt addr 1).toNat = (byteAt addr).toNat := by
  rw [memRead_toNat byteAt addr (by decide)]
  simp [leValue]

/-- A MemRead at an offset from `p`, its bytes counted from `p` as R101 counts them. -/
theorem memRead_add_toNat (k : Nat) {n : Nat} (hn : n ≤ 8) :
    (memRead byteAt (p + k) n).toNat = ((List.range n).map fun i => (byteAt (p + (k + i))).toNat * 2 ^ (8 * i)).sum := by
  simp only [memRead_toNat byteAt _ hn, leValue_eq_sum, Nat.add_assoc]

/-! The four cases of R101. -/

variable {r : Nat}

theorem tailValues_zero : tailValues byteAt p 0 = (0, 0) := rfl

theorem tailValues_t1to3 (hmin : 1 ≤ r) (hmax : r ≤ 3) :
    (tailValues byteAt p r).1.toNat =
      (byteAt (p + 0)).toNat * 2 ^ 16 + (byteAt (p + r / 2)).toNat * 2 ^ 8 + (byteAt (p + (r - 1))).toNat ∧
    (tailValues byteAt p r).2 = 0 := by
  have hbyte : ∀ addr, (memRead byteAt addr 1).toNat < 2 ^ 8 := fun addr => by
    rw [memRead_one_toNat]
    exact (byteAt addr).isLt
  simp only [tailValues, lengthClass_t1to3 hmin hmax, toNat_pack_three (hbyte _) (hbyte _) (hbyte _), memRead_one_toNat,
    Nat.add_sub_assoc hmin, Nat.add_zero, and_self]

theorem tailValues_t4to8 (hmin : 4 ≤ r) (hmax : r ≤ 8) :
    tailValues byteAt p r = (memRead byteAt p 4, memRead byteAt (p + (r - 4)) 4) := by
  simp only [tailValues, lengthClass_t4to8 hmin hmax, Nat.add_sub_assoc hmin]

theorem tailValues_t9to16 (hmin : 9 ≤ r) (hmax : r ≤ 16) :
    tailValues byteAt p r = (memRead byteAt p 8, memRead byteAt (p + (r - 8)) 8) := by
  simp only [tailValues, lengthClass_t9to16 hmin hmax, Nat.add_sub_assoc (show 8 ≤ r by omega)]

end

/-- Settles O30: the step is `tailStep`, its reads are `mem_readSet_tail`, and its two values are those of the class. -/
theorem tailPacksTheLastBytes : Obligations.TailPacksTheLastBytes := by
  unfold Obligations.TailPacksTheLastBytes
  intro s hf hr hinside p r byte
  refine ⟨(tailValues s.inputByte p r).1, (tailValues s.inputByte p r).2, readSet s, engineStep_tail hf hr hinside,
    mem_readSet_tail hf hr, fun hzero => ?_, tailValues_t1to3 _ _, fun hmin hmax => ?_, fun hmin => ?_⟩
  · rw [hzero, tailValues_zero]
    exact ⟨rfl, rfl⟩
  · rw [tailValues_t4to8 _ _ hmin hmax]
    exact ⟨by rw [memRead_toNat _ _ (by decide), leValue_eq_sum], memRead_add_toNat _ _ _ (by decide)⟩
  · rw [tailValues_t9to16 _ _ hmin hr]
    exact ⟨by rw [memRead_toNat _ _ (by decide), leValue_eq_sum], memRead_add_toNat _ _ _ (by decide)⟩

/-! ### The ENGINE's transitions (41_digest_core R105) -/

/-- BULK goes on by the count that it leaves, which does not go below 0 where the step has a meaning. -/
theorem bulkStep_fsm {s : State} (hf : s.fsm = .bulk) (hguard : engineGuard s = none) :
    (bulkStep s).fsm = if (bulkStep s).work.rem.toNat > 64 then .bulk else .fold := by
  have hmin : ¬ s.work.rem.toNat < 64 := fun hlt => by simp [engineGuard, hf, hlt] at hguard
  have hrem : (bulkStep s).work.rem.toNat = s.work.rem.toNat - 64 :=
    BitVec.toNat_sub_of_le (BitVec.le_def.2 (Nat.le_of_not_lt hmin))
  rw [hrem, bulkStep]

/-- MEDIUM goes on by the count that it leaves, as BULK does. -/
theorem mediumStep_fsm {s : State} (hf : s.fsm = .medium) (hguard : engineGuard s = none) :
    (mediumStep s).fsm = if (mediumStep s).work.rem.toNat > 16 then .medium else .tail := by
  have hmin : ¬ s.work.rem.toNat < 16 := fun hlt => by simp [engineGuard, hf, hlt] at hguard
  have hrem : (mediumStep s).work.rem.toNat = s.work.rem.toNat - 16 :=
    BitVec.toNat_sub_of_le (BitVec.le_def.2 (Nat.le_of_not_lt hmin))
  rw [hrem, mediumStep]

@[simp] theorem completeDigest_fsm (v : Word) (s : State) : (completeDigest v s).fsm = .idle := by
  obtain ⟨-, heq⟩ | ⟨-, heq⟩ := completeDigest_cases v s <;> rw [heq, complete_fsm]

/-- The rows of R105. -/
theorem engineEffect_fsm {s : State} (hguard : engineGuard s = none) :
    (engineEffect s).fsm =
      match s.fsm with
      | .idle => .idle
      | .bulk => if (engineEffect s).work.rem.toNat > 64 then .bulk else .fold
      | .fold => if (engineEffect s).work.rem.toNat > 16 then .medium else .tail
      | .medium => if (engineEffect s).work.rem.toNat > 16 then .medium else .tail
      | .tail => .fin1
      | .fin1 => .fin2
      | .fin2 => .idle
      | .mixo => .idle := by
  cases hf : s.fsm <;> simp only [engineEffect, hf]
  case bulk => exact bulkStep_fsm hf hguard
  case medium => exact mediumStep_fsm hf hguard
  case fin2 => exact completeDigest_fsm _ s
  case fold | tail | fin1 | mixo => rfl

/-! A transaction is a dispatch of its command word (10_state R24), a read, or a write to another slot. -/

/-- A word that is none of the five decodes to no instruction (30_encoding R73). -/
theorem decode_cmd64_error {v : Word} (h : v ∉ [0x0#64, 0x1#64, 0x2#64, 0x3#64, 0xF#64]) :
    ∃ r, decode (.cmd64 v) = .error r := by
  simp only [List.mem_cons, List.not_mem_nil, or_false, not_or] at h
  obtain ⟨h0, h1, h2, h3, hF⟩ := h
  rw [decode, decodeCommand, if_neg h0, if_neg h1, if_neg h2, if_neg h3, if_neg hF]
  split_ifs <;> exact ⟨_, rfl⟩

/-- Dispatch of such a word is the illegal-command rule (43_host_operations R137, R140, R143). -/
theorem dispatch_eq_illegalCommand {v : Word} (h : v ∉ [0x0#64, 0x1#64, 0x2#64, 0x3#64, 0xF#64]) (s : State) :
    dispatch v s = illegalCommand s := by
  simp only [List.mem_cons, List.not_mem_nil, or_false, not_or] at h
  obtain ⟨h0, h1, h2, h3, hF⟩ := h
  rw [dispatch, if_neg h0, if_neg hF, if_neg h1, if_neg h2, if_neg h3]
  rfl

theorem hostTurn_cmd64 (v : Word) (s : State) : hostTurn (.cmd64 v) s = .next (dispatch v s) := by
  by_cases hv : v ∈ [0x0#64, 0x1#64, 0x2#64, 0x3#64, 0xF#64]
  · simp only [List.mem_cons, List.not_mem_nil, or_false] at hv
    obtain rfl | rfl | rfl | rfl | rfl := hv <;> rfl
  · obtain ⟨r, hdecode⟩ := decode_cmd64_error hv
    rw [hostTurn_eq_next, hdecode, dispatch_eq_illegalCommand hv]

/-- Of the headers with WE set, 0x12 alone names CMD (30_encoding R75). -/
theorem ofIndex_ne_cmd_of_write :
    ∀ header : BitVec 5, header ≠ 0x12#5 → header.getLsbD 4 = true → Slot.ofIndex (header.extractLsb' 0 4) ≠ .cmd := by
  decide

theorem hostTurn_cases (e : Encoded) (s : State) :
    (∃ v, commandWord e = some v ∧ hostTurn e s = .next (dispatch v s)) ∨
    (commandWord e = none ∧ ∃ slot, hostTurn e s = .next { s with rdata := some (readSlot slot s) }) ∨
    (commandWord e = none ∧ ∃ slot v, hostTurn e s = .next (writeOperand slot v s)) := by
  cases e with
  | cmd64 v => exact .inl ⟨v, rfl, hostTurn_cmd64 v s⟩
  | port header data =>
    by_cases hcmd : header = 0x12#5
    · subst hcmd
      exact .inl ⟨data, rfl, rfl⟩
    · have hnone : commandWord (.port header data) = none := if_neg hcmd
      have hturn : hostTurn (.port header data) s = exec (decodePort header data) s := rfl
      cases hwe : header.getLsbD 4 with
      | false =>
        have hread : decodePort header data = .regRead (Slot.ofIndex (header.extractLsb' 0 4)) := by
          rw [decodePort, hwe]
          rfl
        exact .inr (.inl ⟨hnone, _, by rw [hturn, hread, exec_regRead]⟩)
      | true =>
        have hwrite : decodePort header data = .regWrite (Slot.ofIndex (header.extractLsb' 0 4)) data := by
          rw [decodePort, hwe]
          rfl
        have hslot := ofIndex_ne_cmd_of_write header hcmd hwe
        exact .inr (.inr ⟨hnone, _, data, by rw [hturn, hwrite, exec_regWrite_of_ne_cmd hslot]⟩)

/-- Acceptance of a HASH64 enters the phase of its length; a rejection leaves the ENGINE as it is. -/
theorem acceptHash64_fsm_of_ne {s : State} (h : (acceptHash64 s).fsm ≠ s.fsm) :
    (acceptHash64 s).fsm = phase s.regs.len.toNat := by
  obtain ⟨-, heq⟩ | ⟨-, heq⟩ := acceptHash64_cases s
  · exact absurd (by rw [heq, raiseCmdError_fsm]) h
  · rw [heq]

/-- The phases of a whole window in the order in which R105 lists them. -/
theorem phase_eq_ite_gt (len : Nat) :
    phase len = if len > 64 then .bulk else if len > 16 then .medium else .tail := by
  grind [phase_eq]

/-- The command words that change the ENGINE state: ABORT, and the three commands, which are taken only while idle. -/
theorem dispatch_fsm_of_ne {v : Word} {s : State} (h : (dispatch v s).fsm ≠ s.fsm) :
    (v = 0xF#64 ∧ (dispatch v s).fsm = .idle) ∨
    (v = 0x1#64 ∧ s.status.busy = false ∧ (dispatch v s).fsm = phase s.regs.len.toNat) ∨
    (v = 0x2#64 ∧ s.status.busy = false ∧ (dispatch v s).fsm = .fin1) ∨
    (v = 0x3#64 ∧ s.status.busy = false ∧ (dispatch v s).fsm = .mixo) := by
  obtain ⟨-, heq⟩ | ⟨hv, heq⟩ | ⟨-, -, -, heq⟩ | ⟨hv, hb, heq⟩ | ⟨hv, hb, heq⟩ | ⟨hv, hb, heq⟩ |
      ⟨-, -, -, -, -, -, heq⟩ := dispatch_cases v s <;> rw [heq] at h ⊢
  · exact absurd rfl h
  · exact .inl ⟨hv, rfl⟩
  · exact absurd rfl h
  · exact .inr (.inl ⟨hv, hb, acceptHash64_fsm_of_ne h⟩)
  · exact .inr (.inr (.inl ⟨hv, hb, rfl⟩))
  · exact .inr (.inr (.inr ⟨hv, hb, rfl⟩))
  · exact absurd rfl h

/-- A transaction that changes the ENGINE state is a command word. -/
theorem commandWord_of_hostTurn_fsm_ne {e : Encoded} {s t : State} (hturn : hostTurn e s = .next t)
    (h : t.fsm ≠ s.fsm) : ∃ v, commandWord e = some v ∧ t = dispatch v s := by
  obtain ⟨v, hv, heq⟩ | ⟨-, slot, heq⟩ | ⟨-, slot, v, heq⟩ := hostTurn_cases e s
  all_goals
    obtain rfl := Host.Outcome.next.inj (hturn.symm.trans heq)
  · exact ⟨v, hv, rfl⟩
  · exact absurd rfl h
  · exact absurd (writeOperand_fsm s slot v) h

/-- Of the fields of the block a store changes the window's flag at most. -/
theorem storeTurn_fsm {a : Nat} {b : Byte} {s t : State} (h : storeTurn a b s = .next t) : t.fsm = s.fsm := by
  unfold storeTurn at h
  split at h
  · rw [← Host.Outcome.next.inj h, hostStore_fsm]
  · cases h

/-- Settles O51: an ENGINE move by `engineEffect_fsm`; of the others a reset goes to IDLE, a store changes no ENGINE state,
and a transaction that does is the dispatch of a command word. -/
theorem transitionsAreTheTable : Obligations.TransitionsAreTheTable := by
  unfold Obligations.TransitionsAreTheTable
  intro s t hstep
  have hrun : runMove (nextMove s) (takeMove s) = .next t := hstep
  refine ⟨fun hm => ?_, fun hm hne => ?_⟩
  · rw [hm] at hrun
    obtain ⟨hguard, rfl⟩ := engineStep_next hrun
    exact engineEffect_fsm hguard
  · cases hmove : nextMove s <;> rw [hmove] at hrun
    case engine => exact absurd hmove hm
    case reset =>
      obtain rfl := Host.Outcome.next.inj hrun
      exact .inl ⟨rfl, rfl⟩
    case store a b => exact absurd (storeTurn_fsm hrun) hne
    case host e =>
      obtain ⟨v, hv, rfl⟩ := commandWord_of_hostTurn_fsm_ne hrun hne
      refine .inr ⟨e, rfl, ?_⟩
      rw [hv, ← phase_eq_ite_gt]
      simp only [Option.some.injEq]
      exact dispatch_fsm_of_ne hne

end Sys2Proof.Machine
end

section
/-! SUPPORT. The proofs of the family 43_host_operations: STATUS as a word, command dispatch while BUSY and while idle, and
the completion of every transaction. -/

namespace Sys2Proof.Machine

open Sys2Proof

/-! ### STATUS as a word (10_state R23, 43_host_operations R136) -/

section
variable (st : Status)

/-- STATUS as a number: each flag at its own bit, ERRCODE above them. -/
theorem Status.word_toNat :
    st.word.toNat =
      st.busy.toNat + 2 * st.done.toNat + 4 * st.err.toNat + 8 * st.ovr.toNat + 16 * st.errcode.toNat := by
  obtain ⟨busy, done, err, ovr, errcode⟩ := st
  revert busy done err ovr errcode
  decide

theorem Status.word_eq_ofNat :
    st.word = BitVec.ofNat 64
      (st.busy.toNat + 2 * st.done.toNat + 4 * st.err.toNat + 8 * st.ovr.toNat + 16 * st.errcode.toNat) := by
  rw [← st.word_toNat, BitVec.ofNat_toNat, BitVec.setWidth_eq]

/-- STATUS fits its low 8 bits. -/
theorem Status.word_lt : st.word.toNat < 2 ^ 8 := by
  rw [Status.word, BitVec.toNat_setWidth_of_le (by decide)]
  exact BitVec.isLt _

theorem Status.word_busy : st.word.getLsbD 0 = st.busy := by
  simp only [Status.word, BitVec.getLsbD_setWidth, BitVec.getLsbD_append]
  simp

theorem Status.word_done : st.word.getLsbD 1 = st.done := by
  simp only [Status.word, BitVec.getLsbD_setWidth, BitVec.getLsbD_append]
  simp

theorem Status.word_err : st.word.getLsbD 2 = st.err := by
  simp only [Status.word, BitVec.getLsbD_setWidth, BitVec.getLsbD_append]
  simp

theorem Status.word_errcode : st.word.extractLsb' 4 4 = st.errcode := by
  have hword := st.word_toNat
  have hbusy := st.busy.toNat_lt
  have hdone := st.done.toNat_lt
  have herr := st.err.toNat_lt
  have hovr := st.ovr.toNat_lt
  have herrcode := st.errcode.isLt
  apply BitVec.eq_of_toNat_eq
  rw [BitVec.extractLsb'_toNat, Nat.shiftRight_eq_div_pow]
  omega

theorem Status.word_upper : st.word.extractLsb' 8 56 = 0 := by
  apply BitVec.eq_of_toNat_eq
  rw [BitVec.extractLsb'_toNat, Nat.shiftRight_eq_div_pow, Nat.div_eq_of_lt st.word_lt]
  rfl

end

/-- Settles O44: the bits of the word that is read are the fields of STATUS, of which the invariant speaks. -/
theorem statusNeverReadsBusyWithDone : Obligations.StatusNeverReadsBusyWithDone := by
  unfold Obligations.StatusNeverReadsBusyWithDone
  intro s h
  refine ⟨s.status.word, exec_regRead .status s, ?_⟩
  rw [Status.word_busy, Status.word_done, Status.word_err, Status.word_errcode]
  refine ⟨fun ⟨hbusy, hdone⟩ => ?_, fun ⟨herr, hbusy⟩ => ?_, h.err_iff, s.status.word_upper⟩
  all_goals obtain ⟨hnotDone, hnotErr⟩ := h.busy_clean hbusy
  · exact Bool.false_ne_true (hnotDone.symm.trans hdone)
  · exact Bool.false_ne_true (hnotErr.symm.trans herr)

/-! ### Reads and writes -/

/-- Settles O25: a read returns `readSlot`, which for STATUS is its word and for every other slot the value itself. -/
theorem readsReturnTheSlot : Obligations.ReadsReturnTheSlot := by
  unfold Obligations.ReadsReturnTheSlot
  intro s
  rw [← Status.word_eq_ofNat]
  exact ⟨exec_regRead .id s, exec_regRead .status s, exec_regRead .cmd s, exec_regRead .seed s, exec_regRead .src s,
    exec_regRead .len s, exec_regRead .opa s, exec_regRead .opb s, exec_regRead .result s,
    fun n => exec_regRead (.reserved n) s⟩

/-- A REG_WRITE to CMD is command dispatch (10_state R24). -/
theorem exec_regWrite_cmd (v : Word) (s : State) : exec (.regWrite .cmd v) s = .next (dispatch v s) := rfl

/-! ### NOP -/

/-- Settles O14: word 0x0 decodes to NOP, whose next state is the state itself. -/
theorem nopChangesNothing : Obligations.NopChangesNothing := by
  unfold Obligations.NopChangesNothing
  exact ⟨rfl, exec_eq_next .nop⟩

/-! ### Commands that are dropped or rejected (43_host_operations R140, R143) -/

theorem unlessBusy_of_busy {s : State} (h : s.status.busy = true) (take : State → State) :
    unlessBusy take s = dropCommand s := by
  rw [unlessBusy, if_pos h]

theorem unlessBusy_of_idle {s : State} (h : s.status.busy = false) (take : State → State) :
    unlessBusy take s = take s := by
  rw [unlessBusy, h]
  rfl

theorem dispatch_of_busy {v : Word} {s : State} (h : s.status.busy = true) (h0 : v ≠ 0x0#64) (hF : v ≠ 0xF#64) :
    dispatch v s = dropCommand s := by
  rw [dispatch, if_neg h0, if_neg hF, if_pos h]

/-- Settles O20: the three commands are taken by `unlessBusy`, and dispatch of every other word comes to the same test. -/
theorem commandsWhileBusyAreDropped : Obligations.CommandsWhileBusyAreDropped := by
  unfold Obligations.CommandsWhileBusyAreDropped
  intro s hbusy
  refine ⟨fun i hi => ?_, fun v h0 hF => ?_⟩
  · simp only [List.mem_cons, List.not_mem_nil, or_false] at hi
    have hdrop : execState i s = dropCommand s := by
      obtain rfl | rfl | rfl := hi <;> exact unlessBusy_of_busy hbusy _
    rw [exec_eq_next, hdrop]
    rfl
  · rw [exec_regWrite_cmd, dispatch_of_busy hbusy h0 hF]
    rfl

/-- Settles O21: dispatch of such a word is the illegal-command rule, which while idle rejects; BUSY stays 0
and OVR is cleared. -/
theorem illegalWordsWhileIdleAreRejected : Obligations.IllegalWordsWhileIdleAreRejected := by
  unfold Obligations.IllegalWordsWhileIdleAreRejected
  intro s v hidle hv
  rw [exec_regWrite_cmd, dispatch_eq_illegalCommand hv, illegalCommand, unlessBusy_of_idle hidle, raiseCmdError,
    Status.rejected, hidle]
  rfl

/-! ### Every transaction completes (43_host_operations R141) -/

/-- A transaction completes, and touches nothing outside the block. -/
theorem hostTurn_completes (e : Encoded) (s : State) : ∃ t, hostTurn e s = .next t ∧ s.SameOutside t := by
  obtain ⟨v, -, heq⟩ | ⟨-, slot, heq⟩ | ⟨-, slot, v, heq⟩ := hostTurn_cases e s
  · exact ⟨_, heq, sameOutside_dispatch s v⟩
  · exact ⟨_, heq, rfl, rfl, rfl, rfl⟩
  · exact ⟨_, heq, sameOutside_writeOperand s slot v⟩

/-- Settles O13: the step is the transaction's turn on the state with its move taken. -/
theorem everyHostTransactionCompletes : Obligations.EveryHostTransactionCompletes := by
  unfold Obligations.EveryHostTransactionCompletes
  intro s e rest hmoves
  obtain ⟨t, hturn, hsame⟩ := hostTurn_completes e { s with moves := rest, reads := [] }
  exact ⟨t, (step_of_moves hmoves).trans hturn, hsame.moves⟩

end Sys2Proof.Machine
end

section
/-! SUPPORT. The proofs of the encoding statements: decoding and encoding agree on both formats, and the byte-addressed
form of the register port. -/

namespace Sys2Proof

/-! ### Headers (30_encoding R75, R76) -/

@[simp] theorem portHeader_getLsbD_four (we : Bool) (slot : Slot) : (portHeader we slot).getLsbD 4 = we := by
  have hbit : ∀ (b : Bool) (i : BitVec 4), (BitVec.ofBool b ++ i : BitVec 5).getLsbD 4 = b := by decide
  exact hbit we slot.index

@[simp] theorem portHeader_extractLsb'_zero (we : Bool) (slot : Slot) :
    (portHeader we slot).extractLsb' 0 4 = slot.index := by
  have hbits : ∀ (b : Bool) (i : BitVec 4), (BitVec.ofBool b ++ i : BitVec 5).extractLsb' 0 4 = i := by decide
  exact hbits we slot.index

@[simp] theorem Slot.index_ofIndex : ∀ i : BitVec 4, (Slot.ofIndex i).index = i := by
  decide

/-- A reserved slot in its range has an index of its own (10_state R31). -/
theorem Slot.ofIndex_index {slot : Slot} (h : slot.wellFormed = true) : Slot.ofIndex slot.index = slot := by
  cases slot with
  | reserved n =>
    simp only [Slot.wellFormed, Bool.and_eq_true, decide_eq_true_eq] at h
    have hn : (Slot.reserved n).index.toNat = n := by
      rw [Slot.index, BitVec.toNat_ofNat]
      omega
    rw [Slot.ofIndex_of_gt (by omega), hn]
  | _ => rfl

/-- A header is its WE bit above the index that it names. -/
theorem portHeader_ofIndex (header : BitVec 5) :
    portHeader (header.getLsbD 4) (Slot.ofIndex (header.extractLsb' 0 4)) = header := by
  have hparts : ∀ h : BitVec 5, (BitVec.ofBool (h.getLsbD 4) ++ h.extractLsb' 0 4 : BitVec 5) = h := by decide
  rw [portHeader, Slot.index_ofIndex, hparts]

theorem decodePort_of_read {header : BitVec 5} (h : header.getLsbD 4 = false) (data : Word) :
    decodePort header data = .regRead (Slot.ofIndex (header.extractLsb' 0 4)) := by
  rw [decodePort, h]
  rfl

theorem decodePort_of_write {header : BitVec 5} (h : header.getLsbD 4 = true) (data : Word) :
    decodePort header data = .regWrite (Slot.ofIndex (header.extractLsb' 0 4)) data := by
  rw [decodePort, h]
  rfl

/-! ### Command words (30_encoding R71 to R73) -/

theorem decode_cmd64 (word : Word) : decode (.cmd64 word) = decodeCommand word := rfl

/-- The five rows of R72, and the two ways of R73 for every other word. -/
theorem decode_cmd64_cases (word : Word) :
    (word = 0x0#64 ∧ decode (.cmd64 word) = .ok .nop) ∨
    (word = 0x1#64 ∧ decode (.cmd64 word) = .ok .hash64) ∨
    (word = 0x2#64 ∧ decode (.cmd64 word) = .ok .hash64Pair) ∨
    (word = 0x3#64 ∧ decode (.cmd64 word) = .ok .mix64) ∨
    (word = 0xF#64 ∧ decode (.cmd64 word) = .ok .abort) ∨
    (word ∉ [0x0#64, 0x1#64, 0x2#64, 0x3#64, 0xF#64] ∧ word.extractLsb' 4 60 = 0 ∧
      decode (.cmd64 word) = .error (.reservedOpcode word)) ∨
    (word ∉ [0x0#64, 0x1#64, 0x2#64, 0x3#64, 0xF#64] ∧ word.extractLsb' 4 60 ≠ 0 ∧
      decode (.cmd64 word) = .error (.mbzNotZero word)) := by
  rw [decode_cmd64, decodeCommand]
  split_ifs <;> simp_all

/-- With MBZ zero a word is its OP. -/
theorem word_eq_setWidth_of_mbz_zero {word : Word} (h : word.extractLsb' 4 60 = 0) :
    word = (word.extractLsb' 0 4).setWidth 64 := by
  have hmbz : (word.extractLsb' 4 60).toNat = 0 := congrArg BitVec.toNat h
  have hword : word.toNat < 2 ^ 64 := word.isLt
  apply BitVec.eq_of_toNat_eq
  rw [BitVec.extractLsb'_toNat, Nat.shiftRight_eq_div_pow] at hmbz
  rw [BitVec.toNat_setWidth, BitVec.extractLsb'_toNat, Nat.shiftRight_zero]
  omega

/-- Of the words with MBZ zero, OP 0x4 to 0xE are the ones that R72 does not list. -/
theorem opcode_reserved_iff {word : Word} (h : word.extractLsb' 4 60 = 0) :
    word ∉ [0x0#64, 0x1#64, 0x2#64, 0x3#64, 0xF#64] ↔
      0x4#4 ≤ word.extractLsb' 0 4 ∧ word.extractLsb' 0 4 ≤ 0xE#4 := by
  have hop : ∀ op : BitVec 4, op.setWidth 64 ∉ [0x0#64, 0x1#64, 0x2#64, 0x3#64, 0xF#64] ↔ 0x4#4 ≤ op ∧ op ≤ 0xE#4 := by
    decide
  rw [← hop, ← word_eq_setWidth_of_mbz_zero h]

/-! ### The two directions -/

/-- Settles O1: a command is its word, and a transaction is its WE bit and the index of its slot. -/
theorem decodingAnEncodingGivesTheInstruction : Obligations.DecodingAnEncodingGivesTheInstruction := by
  unfold Obligations.DecodingAnEncodingGivesTheInstruction
  intro i hi
  cases i with
  | nop | hash64 | hash64Pair | mix64 | abort => rfl
  | regRead slot =>
    rw [encode, decode_port, decodePort_of_read (portHeader_getLsbD_four false slot), portHeader_extractLsb'_zero,
      Slot.ofIndex_index hi]
  | regWrite slot data =>
    rw [encode, decode_port, decodePort_of_write (portHeader_getLsbD_four true slot), portHeader_extractLsb'_zero,
      Slot.ofIndex_index hi]

/-- Settles O2: a header is put together again from its WE bit and its slot, and a command word is one of five. -/
theorem encodingADecodingGivesTheWord : Obligations.EncodingADecodingGivesTheWord := by
  unfold Obligations.EncodingADecodingGivesTheWord
  intro e i hdecode
  cases e with
  | port header data =>
    obtain rfl : decodePort header data = i := Except.ok.inj hdecode
    have hheader := portHeader_ofIndex header
    cases hwe : header.getLsbD 4 <;> rw [hwe] at hheader
    · rw [decodePort_of_read hwe, encode, hheader]
      exact ⟨Slot.wellFormed_ofIndex _, .inr ⟨header, data, rfl, hwe, rfl⟩⟩
    · rw [decodePort_of_write hwe, encode, hheader]
      exact ⟨Slot.wellFormed_ofIndex _, .inl rfl⟩
  | cmd64 word =>
    obtain ⟨rfl, heq⟩ | ⟨rfl, heq⟩ | ⟨rfl, heq⟩ | ⟨rfl, heq⟩ | ⟨rfl, heq⟩ | ⟨-, -, heq⟩ | ⟨-, -, heq⟩ :=
      decode_cmd64_cases word
    case inr.inr.inr.inr.inr.inl | inr.inr.inr.inr.inr.inr => cases heq.symm.trans hdecode
    all_goals
      obtain rfl := Except.ok.inj (heq.symm.trans hdecode)
      exact ⟨rfl, .inl rfl⟩

/-- Settles O3: the seven cases exclude each other, and with MBZ zero the words that R72 does not list are those of OP 0x4
to 0xE. -/
theorem onlyTheFiveCommandWordsDecode : Obligations.OnlyTheFiveCommandWordsDecode := by
  unfold Obligations.OnlyTheFiveCommandWordsDecode
  intro word
  obtain ⟨rfl, -⟩ | ⟨rfl, -⟩ | ⟨rfl, -⟩ | ⟨rfl, -⟩ | ⟨rfl, -⟩ | ⟨hword, hmbz, heq⟩ | ⟨hword, hmbz, heq⟩ :=
    decode_cmd64_cases word
  case inr.inr.inr.inr.inr.inl =>
    have hop := (opcode_reserved_iff hmbz).1 hword
    rw [heq]
    simp_all
  case inr.inr.inr.inr.inr.inr =>
    rw [heq]
    simp_all
  all_goals simp [decode, decodeCommand]

/-- Settles O5, word by word. -/
theorem writtenOutWordsDecode : Obligations.WrittenOutWordsDecode := by
  unfold Obligations.WrittenOutWordsDecode
  exact ⟨rfl, rfl, rfl, rfl, rfl, rfl, rfl⟩

/-! ### The byte-addressed bus (20_memory R61) -/

/-- Settles O8: of the 128 bytes from REG_BASE on, each whole slot starts at a multiple of 8. -/
theorem busAddressesAreTheSlots : Obligations.BusAddressesAreTheSlots := by
  unfold Obligations.BusAddressesAreTheSlots
  refine ⟨fun c we slot data _ => ?_, fun c we addr data => ?_⟩
  · have hindex : slot.index.toNat < 16 := slot.index.isLt
    rw [busTransaction, if_pos (by omega), Nat.add_sub_cancel_left, Nat.mul_div_cancel_left _ (by decide),
      BitVec.ofNat_toNat, BitVec.setWidth_eq, portHeader]
  · rw [busTransaction]
    split_ifs with haddr
    · refine iff_of_true rfl ⟨(addr - c.regBase) / 8, ?_⟩
      omega
    · refine iff_of_false nofun fun ⟨i, hi, hslot⟩ => haddr ?_
      omega

end Sys2Proof
end

section
/-! SUPPORT. The digest as a function (41_digest_core R95): its loops one iteration at a time, the bytes that it depends on,
and the digest of 16 bytes (42_fixed_pair R131). -/

namespace Sys2Proof.Machine

open Sys2Proof

/-! ### The loops of R95

Both are one loop over a block; `bulkLoop_eq_absorbWhile` and `mediumLoop_eq_absorbWhile` tie it to the model. -/

/-- `while rem > limit`, with fuel. -/
def absorbWhile (limit : Nat) (block : Absorb → Absorb) : Nat → Absorb → Absorb
  | 0, v => v
  | fuel + 1, v => if v.rem > limit then absorbWhile limit block fuel (block v) else v

theorem bulkLoop_eq_absorbWhile (byteAt : Nat → Byte) (fuel : Nat) : ∀ v,
    bulkLoop byteAt fuel v = absorbWhile 64 (bulkBlock byteAt) fuel v := by
  induction fuel with
  | zero => intro v; rfl
  | succ fuel ih => intro v; rw [bulkLoop, absorbWhile, ih]

theorem mediumLoop_eq_absorbWhile (byteAt : Nat → Byte) (fuel : Nat) : ∀ v,
    mediumLoop byteAt fuel v = absorbWhile 16 (mediumBlock byteAt) fuel v := by
  induction fuel with
  | zero => intro v; rfl
  | succ fuel ih => intro v; rw [mediumLoop, absorbWhile, ih]

section
variable {limit : Nat} {block block' : Absorb → Absorb}

theorem absorbWhile_of_le {v : Absorb} (h : v.rem ≤ limit) (fuel : Nat) : absorbWhile limit block fuel v = v := by
  cases fuel with
  | zero => rfl
  | succ fuel => rw [absorbWhile, if_neg (Nat.not_lt.2 h)]

/-- Where a block takes bytes away, `rem` iterations are enough and more change nothing. -/
theorem absorbWhile_fuel (hblock : ∀ v, limit < v.rem → (block v).rem < v.rem) (fuel : Nat) : ∀ fuel' v,
    v.rem ≤ fuel → v.rem ≤ fuel' → absorbWhile limit block fuel v = absorbWhile limit block fuel' v := by
  induction fuel with
  | zero =>
    intro fuel' v hfuel _
    rw [absorbWhile_of_le (by omega), absorbWhile_of_le (by omega)]
  | succ fuel ih =>
    intro fuel' v hfuel hfuel'
    obtain hgt | hle := Nat.lt_or_ge limit v.rem
    · obtain ⟨n, rfl⟩ : ∃ n, fuel' = n + 1 := ⟨fuel' - 1, by omega⟩
      have hless := hblock v hgt
      rw [absorbWhile, absorbWhile, if_pos hgt, if_pos hgt, ih n (block v) (by omega) (by omega)]
    · rw [absorbWhile_of_le hle, absorbWhile_of_le hle]

/-- One iteration. -/
theorem absorbWhile_of_gt (hblock : ∀ v, limit < v.rem → (block v).rem < v.rem) {v : Absorb} (h : limit < v.rem) :
    absorbWhile limit block v.rem v = absorbWhile limit block (block v).rem (block v) := by
  have hless := hblock v h
  rw [absorbWhile_fuel hblock v.rem (v.rem + 1) v (by omega) (by omega), absorbWhile, if_pos h,
    absorbWhile_fuel hblock v.rem (block v).rem (block v) (by omega) (by omega)]

/-- Two loops keep a relation that their blocks keep. -/
theorem absorbWhile_related {R : Absorb → Absorb → Prop} (hrem : ∀ v w, R v w → w.rem = v.rem)
    (hblock : ∀ v w, R v w → limit < v.rem → R (block v) (block' w)) (fuel : Nat) :
    ∀ v w, R v w → R (absorbWhile limit block fuel v) (absorbWhile limit block' fuel w) := by
  induction fuel with
  | zero => exact fun v w h => h
  | succ fuel ih =>
    intro v w h
    obtain hgt | hle := Nat.lt_or_ge limit v.rem
    · rw [absorbWhile, absorbWhile, if_pos hgt, if_pos (hrem v w h ▸ hgt)]
      exact ih _ _ (hblock v w h hgt)
    · rwa [absorbWhile_of_le hle, absorbWhile_of_le (hrem v w h ▸ hle)]

end

section
variable {byteAt : Nat → Byte} {v : Absorb} {slen : Word}

theorem digestFromBulk_of_gt (h : 64 < v.rem) :
    digestFromBulk byteAt v slen = digestFromBulk byteAt (bulkBlock byteAt v) slen := by
  have hblock : ∀ v, 64 < v.rem → (bulkBlock byteAt v).rem < v.rem := fun v h =>
    Nat.sub_lt (by omega) (by decide)
  simp only [digestFromBulk, bulkLoop_eq_absorbWhile, absorbWhile_of_gt hblock h]

theorem digestFromBulk_of_le (h : v.rem ≤ 64) :
    digestFromBulk byteAt v slen = digestFromMedium byteAt { v with cs := v.cs ^^^ v.ds } slen := by
  simp only [digestFromBulk, bulkLoop_eq_absorbWhile, absorbWhile_of_le h]

theorem digestFromMedium_of_gt (h : 16 < v.rem) :
    digestFromMedium byteAt v slen = digestFromMedium byteAt (mediumBlock byteAt v) slen := by
  have hblock : ∀ v, 16 < v.rem → (mediumBlock byteAt v).rem < v.rem := fun v h =>
    Nat.sub_lt (by omega) (by decide)
  simp only [digestFromMedium, mediumLoop_eq_absorbWhile, absorbWhile_of_gt hblock h]

theorem digestFromMedium_of_le (h : v.rem ≤ 16) :
    digestFromMedium byteAt v slen =
      finalize (tailValues byteAt v.pos v.rem).1 (tailValues byteAt v.pos v.rem).2 v.cs slen := by
  simp only [digestFromMedium, mediumLoop_eq_absorbWhile, absorbWhile_of_le h]

end

/-! ### The bytes that a digest depends on (41_digest_core R109) -/

/-- A MemRead depends on its own bytes, wherever they are. -/
theorem memRead_eq_of_bytes {f g : Nat → Byte} {a b n : Nat} (h : ∀ i, i < n → g (b + i) = f (a + i)) :
    memRead g b n = memRead f a n := by
  have hmap : ((List.range n).map fun k => (g (b + k)).toNat * 2 ^ (8 * k)) =
      (List.range n).map fun k => (f (a + k)).toNat * 2 ^ (8 * k) :=
    List.map_congr_left fun k hk => by rw [h k (List.mem_range.1 hk)]
  rw [memRead, memRead, leValue_eq_sum, leValue_eq_sum, hmap]

/-- Loop variables `w` over the bytes of `g` stand where `v` stand over those of `f`, `base` addresses further on, and the
bytes left to absorb are the same. -/
structure Absorb.Shifted (f g : Nat → Byte) (base : Nat) (v w : Absorb) : Prop where
  cs : w.cs = v.cs
  ds : w.ds = v.ds
  pos : w.pos = base + v.pos
  rem : w.rem = v.rem
  bytes : ∀ i, v.pos ≤ i → i < v.pos + v.rem → g (base + i) = f i

section
variable {f g : Nat → Byte} {base : Nat} {v w : Absorb} (h : Absorb.Shifted f g base v w)
include h

/-- A MemRead of bytes left to absorb. -/
theorem Absorb.Shifted.memRead_eq {a n : Nat} (hlow : v.pos ≤ a) (hhigh : a + n ≤ v.pos + v.rem) :
    memRead g (base + a) n = memRead f a n :=
  memRead_eq_of_bytes fun i hi => by rw [Nat.add_assoc, h.bytes (a + i) (by omega) (by omega)]

theorem Absorb.Shifted.bulkBlock (hrem : 64 < v.rem) :
    Absorb.Shifted f g base (bulkBlock f v) (bulkBlock g w) := by
  have hword : ∀ k, k < 8 → memRead g (w.pos + 8 * k) 8 = memRead f (v.pos + 8 * k) 8 := fun k hk => by
    rw [h.pos, Nat.add_assoc, h.memRead_eq (by omega) (by omega)]
  refine ⟨?_, ?_, ?_, ?_, fun i hlow hhigh => h.bytes i ?_ ?_⟩
  all_goals simp only [Machine.bulkBlock] at *
  · rw [hword 0 (by decide), hword 1 (by decide), hword 2 (by decide), hword 3 (by decide), h.cs]
  · rw [hword 4 (by decide), hword 5 (by decide), hword 6 (by decide), hword 7 (by decide), h.ds]
  · rw [h.pos, Nat.add_assoc]
  · rw [h.rem]
  · omega
  · omega

theorem Absorb.Shifted.mediumBlock (hrem : 16 < v.rem) :
    Absorb.Shifted f g base (mediumBlock f v) (mediumBlock g w) := by
  refine ⟨?_, h.ds, ?_, ?_, fun i hlow hhigh => h.bytes i ?_ ?_⟩
  all_goals simp only [Machine.mediumBlock] at *
  · rw [h.pos, Nat.add_assoc, h.memRead_eq (by omega) (by omega), h.memRead_eq (by omega) (by omega), h.cs]
  · rw [h.pos, Nat.add_assoc]
  · rw [h.rem]
  · omega
  · omega

theorem Absorb.Shifted.fold :
    Absorb.Shifted f g base { v with cs := v.cs ^^^ v.ds } { w with cs := w.cs ^^^ w.ds } :=
  { h with cs := by simp only [h.cs, h.ds] }

/-- Every read of the tail is of a byte left to absorb (41_digest_core R101). -/
theorem Absorb.Shifted.tailValues_eq : tailValues g w.pos w.rem = tailValues f v.pos v.rem := by
  rw [h.pos, h.rem]
  have hread : ∀ k n, k + n ≤ v.rem → memRead g (base + v.pos + k) n = memRead f (v.pos + k) n := fun k n hk => by
    rw [Nat.add_assoc, h.memRead_eq (by omega) (by omega)]
  have hfirst : ∀ n, n ≤ v.rem → memRead g (base + v.pos) n = memRead f v.pos n := fun n hn =>
    h.memRead_eq (by omega) (by omega)
  unfold tailValues lengthClass
  split_ifs
  · rfl
  all_goals simp only
  · rw [Nat.add_sub_assoc (by omega), Nat.add_sub_assoc (by omega), hfirst 1 (by omega), hread (v.rem / 2) 1 (by omega),
      hread (v.rem - 1) 1 (by omega)]
  · rw [Nat.add_sub_assoc (by omega), Nat.add_sub_assoc (by omega), hfirst 4 (by omega), hread (v.rem - 4) 4 (by omega)]
  all_goals
    rw [Nat.add_sub_assoc (by omega), Nat.add_sub_assoc (by omega), hfirst 8 (by omega), hread (v.rem - 8) 8 (by omega)]

theorem Absorb.Shifted.digestFromMedium_eq (slen : Word) : digestFromMedium g w slen = digestFromMedium f v slen := by
  have hloop := absorbWhile_related (fun _ _ h => h.rem) (fun _ _ h => Absorb.Shifted.mediumBlock h) v.rem v w h
  rw [← mediumLoop_eq_absorbWhile, ← mediumLoop_eq_absorbWhile] at hloop
  simp only [digestFromMedium, h.rem, hloop.tailValues_eq, hloop.cs]

theorem Absorb.Shifted.digestFromBulk_eq (slen : Word) : digestFromBulk g w slen = digestFromBulk f v slen := by
  have hloop := absorbWhile_related (fun _ _ h => h.rem) (fun _ _ h => Absorb.Shifted.bulkBlock h) v.rem v w h
  rw [← bulkLoop_eq_absorbWhile, ← bulkLoop_eq_absorbWhile] at hloop
  simp only [digestFromBulk, h.rem, hloop.fold.digestFromMedium_eq]

end

@[simp] theorem windowBytes_length (m : Memory) (base n : Nat) : (windowBytes m base n).length = n := by
  simp [windowBytes]

theorem windowBytes_getD (m : Memory) (base : Nat) {n i : Nat} (h : i < n) :
    (windowBytes m base n).getD i 0 = Memory.read m (base + i) := by
  simp [windowBytes, h]

/-- The digest of a window in the addresses of the input space (41_digest_core R109). -/
theorem hash64_windowBytes (m : Memory) (base n : Nat) (seed : Word) :
    hash64 (windowBytes m base n) seed =
      (if n > 64 then digestFromBulk else digestFromMedium) (Memory.read m)
        { cs := seed ^^^ pi0, ds := seed ^^^ pi0, pos := base, rem := n } (BitVec.ofNat 64 n) := by
  have hshift : Absorb.Shifted (fun i => (windowBytes m base n).getD i 0) (Memory.read m) base
      { cs := seed ^^^ pi0, ds := seed ^^^ pi0, pos := 0, rem := n }
      { cs := seed ^^^ pi0, ds := seed ^^^ pi0, pos := base, rem := n } :=
    { cs := rfl, ds := rfl, pos := rfl, rem := rfl
      bytes := fun i _ hi => (windowBytes_getD m base (by simpa using hi)).symm }
  simp only [hash64, windowBytes_length]
  split_ifs
  · exact (hshift.digestFromBulk_eq _).symm
  · exact (hshift.digestFromMedium_eq _).symm

/-! ### The digest of 16 bytes (42_fixed_pair R131) -/

/-- A little-endian value from its bytes as base-256 digits. -/
theorem leValue_of_digits {byteAt : Nat → Byte} (n : Nat) : ∀ addr x,
    (∀ k, k < n → (byteAt (addr + k)).toNat = x / 256 ^ k % 256) → leValue byteAt addr n = x % 256 ^ n := by
  induction n with
  | zero => intro addr x _; rw [leValue, pow_zero, Nat.mod_one]
  | succ n ih =>
    intro addr x h
    have hfirst : (byteAt addr).toNat = x % 256 := by simpa using h 0 (by omega)
    have hrest := ih (addr + 1) (x / 256) fun k hk => by
      rw [Nat.add_assoc, Nat.add_comm 1 k, h (k + 1) (by omega), Nat.div_div_eq_div_mul, pow_succ, Nat.mul_comm]
    rw [leValue, hfirst, hrest, pow_succ, Nat.mul_comm (256 ^ n) 256, Nat.mod_mul]

/-- Reading back the bytes of a word gives the word. -/
theorem memRead_of_wordBytes {byteAt : Nat → Byte} {addr : Nat} {v : Word}
    (h : ∀ k, k < 8 → byteAt (addr + k) = (v >>> (8 * k)).setWidth 8) : memRead byteAt addr 8 = v := by
  have hdigits : ∀ k, k < 8 → (byteAt (addr + k)).toNat = v.toNat / 256 ^ k % 256 := fun k hk => by
    rw [h k hk, BitVec.toNat_setWidth, BitVec.toNat_ushiftRight, Nat.shiftRight_eq_div_pow, pow_mul]
    rfl
  apply BitVec.eq_of_toNat_eq
  rw [memRead_toNat byteAt addr (Nat.le_refl 8), leValue_of_digits 8 addr v.toNat hdigits]
  exact Nat.mod_eq_of_lt v.isLt

@[simp] theorem wordBytes_length (v : Word) : (wordBytes v).length = 8 := by
  simp [wordBytes]

theorem wordBytes_getElem? (v : Word) {k : Nat} (h : k < 8) : (wordBytes v)[k]? = some ((v >>> (8 * k)).setWidth 8) := by
  simp [wordBytes, h]

/-- The tail of 16 bytes is all of them, and neither loop runs. -/
theorem hash64_wordBytes (a b seed : Word) : hash64 (wordBytes a ++ wordBytes b) seed = hash64Pair a b seed := by
  have hlow : memRead (fun i => (wordBytes a ++ wordBytes b).getD i 0) 0 8 = a := memRead_of_wordBytes fun k hk => by
    have hleft : k < (wordBytes a).length := by simpa using hk
    simp only [Nat.zero_add, List.getD_eq_getElem?_getD, List.getElem?_append_left hleft, wordBytes_getElem? a hk,
      Option.getD_some]
  have hhigh : memRead (fun i => (wordBytes a ++ wordBytes b).getD i 0) 8 8 = b := memRead_of_wordBytes fun k hk => by
    have hright : (wordBytes a).length ≤ 8 + k := by simp
    simp only [List.getD_eq_getElem?_getD, List.getElem?_append_right hright, wordBytes_length, Nat.add_sub_cancel_left,
      wordBytes_getElem? b hk, Option.getD_some]
  have hlength : (wordBytes a ++ wordBytes b).length = 16 := by simp
  have htail := tailValues_t9to16 (fun i => (wordBytes a ++ wordBytes b).getD i 0) 0 (show 9 ≤ 16 by decide) (Nat.le_refl 16)
  simp only [Nat.zero_add, Nat.reduceSub, hlow, hhigh] at htail
  simp only [hash64, hlength, if_neg (show ¬16 > 64 by decide)]
  rw [digestFromMedium_of_le (Nat.le_refl 16), htail]
  rfl

end Sys2Proof.Machine
end

section
/-! SUPPORT. The proofs about one transaction: what comes next is what runs, the commands while idle, the operand writes,
and the frame of every instruction. -/

namespace Sys2Proof.Machine

open Sys2Proof

/-! ### What a step runs (20_memory R63, log 3 to 5) -/

theorem hostTurn_of_decode {e : Encoded} {i : Instr} (h : decode e = .ok i) (s : State) : hostTurn e s = exec i s := by
  rw [hostTurn, h]

/-- Settles O9: the step is the transaction's turn on the state with its move taken. -/
theorem stepRunsTheDecodedTransaction : Obligations.StepRunsTheDecodedTransaction := by
  unfold Obligations.StepRunsTheDecodedTransaction
  exact fun s e i rest hmoves hdecode => (step_of_moves hmoves).trans (hostTurn_of_decode hdecode _)

theorem decodeTableWord_eq_some {nbits w : Nat} {i : Instr} (h : decodeTableWord nbits w = some i) :
    ∃ e, tableWord nbits w = some e ∧ decode e = .ok i := by
  unfold decodeTableWord at h
  cases htable : tableWord nbits w with
  | none => simp [htable] at h
  | some e =>
    cases hdecode : decode e with
    | error r => simp [htable, hdecode] at h
    | ok j =>
      simp only [htable, hdecode, Option.some.injEq] at h
      exact ⟨e, rfl, h ▸ hdecode⟩

/-- Settles O10: the word stands before the moves that were pending, which are left when it is taken. -/
theorem placedWordIsRunNext : Obligations.PlacedWordIsRunNext := by
  unfold Obligations.PlacedWordIsRunNext
  intro s nbits w i hword
  obtain ⟨e, htable, hdecode⟩ := decodeTableWord_eq_some hword
  have hplaced : s.withFetchWord nbits w = placeTransaction s e := by rw [State.withFetchWord, htable]
  rw [hplaced]
  exact stepRunsTheDecodedTransaction (placeTransaction s e) e i s.moves rfl hdecode

/-- Settles O11: both are the dispatch of the word. -/
theorem commandWordIsAWriteToCmd : Obligations.CommandWordIsAWriteToCmd := by
  unfold Obligations.CommandWordIsAWriteToCmd
  intro s word rest
  rw [step_of_moves (s := { s with moves := .host (.cmd64 word) :: rest }) rfl,
    step_of_moves (s := { s with moves := .host (.port 0x12#5 word) :: rest }) rfl]
  exact hostTurn_cmd64 word _

/-- Settles O22: both are the dispatch of the word. -/
theorem writeToCmdRunsTheCommand : Obligations.WriteToCmdRunsTheCommand := by
  unfold Obligations.WriteToCmdRunsTheCommand
  intro s word i hdecode
  rw [exec_regWrite_cmd, ← hostTurn_cmd64, hostTurn_of_decode hdecode]

/-- Without a pending move the step is the ENGINE's. -/
theorem step_of_no_moves {s : State} (h : s.moves = []) : step s = engineStep { s with reads := [] } := by
  simp only [step, nextMove, takeMove, h, List.tail_nil, runMove]

theorem engineStep_idle {s : State} (hf : s.fsm = .idle) : engineStep s = .next { s with reads := [] } := by
  have heffect : engineEffect s = s := by simp only [engineEffect, hf]
  rw [engineStep_of_no_read (by simp [hf]) (by simp [hf]) (by simp [hf]), heffect]
  rfl

/-- Settles O12: a move that is pending is taken, and the ENGINE's is the one that stands for none. -/
theorem engineMovesWhenScheduled : Obligations.EngineMovesWhenScheduled := by
  unfold Obligations.EngineMovesWhenScheduled
  exact ⟨fun _ _ => step_of_moves, fun _ => step_of_no_moves, fun _ => engineStep_idle⟩

/-! ### The commands while idle -/

/-- Settles O15: ABORT is `abortCommand`, in any state, and IDLE has no read. -/
theorem abortStopsAndClearsStatus : Obligations.AbortStopsAndClearsStatus := by
  unfold Obligations.AbortStopsAndClearsStatus
  intro s
  exact ⟨abortCommand s, exec_eq_next .abort s, rfl, rfl, rfl, rfl, rfl, rfl, rfl, rfl, rfl, fun _ => rfl,
    engineStep_idle (abortCommand_fsm s)⟩

section
variable {s : State} (hidle : s.status.busy = false)
include hidle

theorem exec_hash64_idle : exec .hash64 s = .next (acceptHash64 s) := by
  rw [exec_eq_next, execState, unlessBusy_of_idle hidle]

theorem exec_hash64Pair_idle : exec .hash64Pair s = .next (acceptHash64Pair s) := by
  rw [exec_eq_next, execState, unlessBusy_of_idle hidle]

theorem exec_mix64_idle : exec .mix64 s = .next (acceptMix64 s) := by
  rw [exec_eq_next, execState, unlessBusy_of_idle hidle]

end

/-- Settles O16: the window fits, so that the command is taken. -/
theorem hash64IsAcceptedWhenTheWindowFits : Obligations.Hash64IsAcceptedWhenTheWindowFits := by
  unfold Obligations.Hash64IsAcceptedWhenTheWindowFits
  intro s hidle hfits
  rw [exec_hash64_idle hidle, ← phase_eq_ite_gt]
  obtain ⟨hpast, -⟩ | ⟨-, heq⟩ := acceptHash64_cases s
  · exact absurd hfits (Nat.not_le.2 hpast)
  · rw [heq]
    rfl

/-- Settles O17: the window does not fit, so that the command is rejected; BUSY stays 0. -/
theorem hash64IsRejectedPastTheTop : Obligations.Hash64IsRejectedPastTheTop := by
  unfold Obligations.Hash64IsRejectedPastTheTop
  intro s hidle hpast
  rw [exec_hash64_idle hidle]
  obtain ⟨-, heq⟩ | ⟨hfits, -⟩ := acceptHash64_cases s
  · rw [heq, raiseCmdError, Status.rejected, hidle]
    rfl
  · exact absurd hfits (Nat.not_le.2 hpast)

/-- Settles O18: the command has no range to check. -/
theorem pairIsAcceptedWhileIdle : Obligations.PairIsAcceptedWhileIdle := by
  unfold Obligations.PairIsAcceptedWhileIdle
  exact fun s hidle => exec_hash64Pair_idle hidle

/-- Settles O19: the command has no range to check. -/
theorem mixIsAcceptedWhileIdle : Obligations.MixIsAcceptedWhileIdle := by
  unfold Obligations.MixIsAcceptedWhileIdle
  exact fun s hidle => exec_mix64_idle hidle

/-! ### Operand writes (43_host_operations R135) -/

/-- Settles O23: each is a `writeOperand`; SRC keeps what `truncAddr` keeps, which at 64 bits is everything. -/
theorem writesStoreTheOperand : Obligations.WritesStoreTheOperand := by
  unfold Obligations.WritesStoreTheOperand
  intro s v
  refine ⟨exec_eq_next (.regWrite .seed v) s, exec_eq_next (.regWrite .len v) s, exec_eq_next (.regWrite .opa v) s,
    exec_eq_next (.regWrite .opb v) s, truncAddr s.cfg v, truncAddr_toNat s.cfg v, fun hwidth => ?_,
    exec_eq_next (.regWrite .src v) s⟩
  exact truncAddr_of_lt s.cfg v (by rw [hwidth]; exact v.isLt)

/-- A write leaves what a read of any other slot returns. -/
theorem readSlot_writeOperand_of_ne {slot slot' : Slot} (h : slot' ≠ slot) (v : Word) (s : State) :
    readSlot slot (writeOperand slot' v s) = readSlot slot s := by
  cases slot' with
  | id | status | cmd | result | reserved => rfl
  | seed | src | len | opa | opb => cases slot <;> simp_all [readSlot, writeOperand]

/-! ### The frame of every instruction -/

/-- Two states that agree in the registers and in what the HOST has read. Every command relates its states so. -/
structure State.SamePort (s t : State) : Prop where
  regs : t.regs = s.regs
  rdata : t.rdata = s.rdata

/-- Two states that agree in the command in progress. Every transaction that is no command relates its states so, and so
does a dropped one. -/
structure State.SameCommand (s t : State) : Prop where
  fsm : t.fsm = s.fsm
  work : t.work = s.work
  window : t.window = s.window

section
variable (s : State)

theorem samePort_acceptHash64 : s.SamePort (acceptHash64 s) := by
  obtain ⟨-, heq⟩ | ⟨-, heq⟩ := acceptHash64_cases s <;> rw [heq] <;> exact ⟨rfl, rfl⟩

theorem samePort_unlessBusy {take : State → State} (h : s.SamePort (take s)) : s.SamePort (unlessBusy take s) := by
  obtain ⟨-, heq⟩ | ⟨-, heq⟩ := unlessBusy_cases take s <;> rw [heq]
  · exact ⟨rfl, rfl⟩
  · exact h

theorem samePort_dispatch (v : Word) : s.SamePort (dispatch v s) := by
  obtain ⟨-, heq⟩ | ⟨-, heq⟩ | ⟨-, -, -, heq⟩ | ⟨-, -, heq⟩ | ⟨-, -, heq⟩ | ⟨-, -, heq⟩ | ⟨-, -, -, -, -, -, heq⟩ :=
    dispatch_cases v s <;> rw [heq]
  case inr.inr.inr.inl => exact samePort_acceptHash64 s
  all_goals exact ⟨rfl, rfl⟩

/-- Every instruction that is no transaction is a command. -/
theorem samePort_execState {i : Instr} (hread : ∀ slot, i ≠ .regRead slot) (hwrite : ∀ slot v, i ≠ .regWrite slot v) :
    s.SamePort (execState i s) := by
  cases i with
  | nop | abort => exact ⟨rfl, rfl⟩
  | hash64 => exact samePort_unlessBusy s (samePort_acceptHash64 s)
  | hash64Pair | mix64 => exact samePort_unlessBusy s ⟨rfl, rfl⟩
  | regRead slot => exact absurd rfl (hread slot)
  | regWrite slot v => exact absurd rfl (hwrite slot v)

theorem sameCommand_writeOperand (slot : Slot) (v : Word) : s.SameCommand (writeOperand slot v s) :=
  ⟨writeOperand_fsm s slot v, writeOperand_work s slot v, writeOperand_window s slot v⟩

/-- Only a command changes the command in progress or STATUS. -/
theorem sameCommand_execState {i : Instr} (hi : i ∉ [Instr.hash64, Instr.hash64Pair, Instr.mix64, Instr.abort])
    (hcmd : ∀ v, i ≠ .regWrite .cmd v) : s.SameCommand (execState i s) ∧ (execState i s).status = s.status := by
  cases i with
  | nop | regRead => exact ⟨⟨rfl, rfl, rfl⟩, rfl⟩
  | hash64 | hash64Pair | mix64 | abort => exact absurd (by decide) hi
  | regWrite slot v =>
    rw [execState, if_neg fun hslot => hcmd v (by rw [hslot])]
    exact ⟨sameCommand_writeOperand s slot v, writeOperand_status s slot v⟩

theorem execState_regs_of_not_write {i : Instr} (h : ∀ slot v, i ≠ .regWrite slot v) :
    (execState i s).regs = s.regs := by
  by_cases hread : ∃ slot, i = .regRead slot
  · obtain ⟨slot, rfl⟩ := hread
    rfl
  · exact (samePort_execState s (fun slot heq => hread ⟨slot, heq⟩) h).regs

theorem execState_rdata_of_not_read {i : Instr} (h : ∀ slot, i ≠ .regRead slot) :
    (execState i s).rdata = s.rdata := by
  cases i with
  | regWrite slot v =>
    rw [execState]
    split
    · exact (samePort_dispatch s v).rdata
    · exact writeOperand_rdata s slot v
  | _ => exact (samePort_execState s h nofun).rdata

@[simp] theorem execState_result (i : Instr) : (execState i s).regs.result = s.regs.result := by
  cases i with
  | regWrite slot v =>
    rw [execState]
    split
    · rw [(samePort_dispatch s v).regs]
    · exact writeOperand_result s slot v
  | _ => exact congrArg Regs.result (execState_regs_of_not_write s nofun)

theorem readSlot_eq_of_regs {slot : Slot} {t : State} (hstatus : slot ≠ .status) (h : t.regs = s.regs) :
    readSlot slot t = readSlot slot s := by
  cases slot with
  | status => exact absurd rfl hstatus
  | _ => simp only [readSlot, h]

/-- Only a write to a slot changes what a read of it returns, except for STATUS. -/
theorem readSlot_execState {i : Instr} {slot : Slot} (hstatus : slot ≠ .status) (h : ∀ v, i ≠ .regWrite slot v) :
    readSlot slot (execState i s) = readSlot slot s := by
  cases i with
  | regWrite slot' v =>
    rw [execState]
    split
    · exact readSlot_eq_of_regs s hstatus (samePort_dispatch s v).regs
    · exact readSlot_writeOperand_of_ne (fun hslot => h v (by rw [hslot])) v s
  | _ => exact readSlot_eq_of_regs s hstatus (execState_regs_of_not_write s nofun)

end

/-- Settles O26: the operand registers are slots that a read returns. -/
theorem instructionsLeaveTheRestAlone : Obligations.InstructionsLeaveTheRestAlone := by
  unfold Obligations.InstructionsLeaveTheRestAlone
  intro i s t hexec
  obtain rfl : execState i s = t := Host.Outcome.next.inj ((exec_eq_next i s).symm.trans hexec)
  obtain ⟨hcfg, hinput, hmoves, hreads⟩ := sameOutside_execState s i
  refine ⟨hcfg, hmoves, hreads, execState_result s i, fun a => by rw [State.inputByte, hinput, State.inputByte],
    execState_regs_of_not_write s, readSlot_execState (slot := .seed) s nofun,
    readSlot_execState (slot := .src) s nofun, readSlot_execState (slot := .len) s nofun,
    readSlot_execState (slot := .opa) s nofun, readSlot_execState (slot := .opb) s nofun,
    execState_rdata_of_not_read s, fun hi hcmd => ?_⟩
  obtain ⟨⟨hfsm, hwork, hwindow⟩, hstatus⟩ := sameCommand_execState s hi hcmd
  exact ⟨hstatus, hfsm, hwork, hwindow⟩

/-! ### The HOST's other moves (20_memory R64, 70_reset R167) -/

/-- A store breaks the window exactly by changing a byte in it (20_memory R52, R64). -/
theorem windowBroken_hostStore (a : Nat) (b : Byte) (s : State) :
    (hostStore a b s).windowBroken = true ↔
      s.windowBroken = true ∨ ∃ w, s.window = some w ∧ w.base ≤ a ∧ a < w.base + w.len ∧ s.inputByte a ≠ b := by
  rw [State.windowBroken, State.windowBroken, hostStore_window]
  cases s.window with
  | none => simp
  | some w =>
    have hhit : (w.contains a && s.inputByte a ≠ b) = true ↔
        w.base ≤ a ∧ a < w.base + w.len ∧ s.inputByte a ≠ b := by
      simp [Window.contains, and_assoc]
    rw [Option.map_some]
    split_ifs with hbreak
    · simp [hhit.1 hbreak]
    · simp [hhit.not.1 hbreak]

/-- Settles O35: the step is `hostStore` on the state with its move taken. -/
theorem hostStoreChangesOneByte : Obligations.HostStoreChangesOneByte := by
  unfold Obligations.HostStoreChangesOneByte
  intro s a b rest hmoves ha hwf
  refine ⟨hostStore a b { s with moves := rest, reads := [] }, (step_of_moves hmoves).trans (if_pos ha),
    rfl, rfl, rfl, rfl, rfl, rfl, rfl, fun x => hostStore_inputByte _ a b x hwf, windowBroken_hostStore a b _⟩

/-- Settles O40: the step is `resetEvent` on the state with its move taken. -/
theorem resetEventClearsTheBlock : Obligations.ResetEventClearsTheBlock := by
  unfold Obligations.ResetEventClearsTheBlock
  intro s rest hmoves
  exact ⟨resetEvent { s with moves := rest, reads := [] }, step_of_moves hmoves, rfl, rfl, rfl, rfl, rfl, rfl, rfl, rfl, rfl, rfl⟩

/-- Settles O41: nothing is listed, every register is 0, and the ENGINE is IDLE without a window. -/
theorem resetMeetsTheInvariant : Obligations.ResetMeetsTheInvariant := by
  unfold Obligations.ResetMeetsTheInvariant
  exact
    { cfg_legal := (by decide : Config.standard.Legal)
      input_wf := ⟨List.Pairwise.nil, fun _ h => absurd h List.not_mem_nil⟩
      input_inside := fun _ h => absurd h List.not_mem_nil
      busy_iff := iff_of_false nofun (· rfl)
      err_iff := iff_of_false nofun (· rfl)
      errcode_named := Nat.zero_le 2
      err_done := nofun
      busy_clean := nofun
      src_inside := Nat.two_pow_pos 64
      ptr_inside := Nat.two_pow_pos 64
      phase_inv := trivial }

end Sys2Proof.Machine
end

section
/-! SUPPORT. The proofs about one ENGINE step and one step of the machine: the absorbing steps, the read sets, what changes
RESULT and STATUS, and what the ENGINE does not notice. -/

namespace Sys2Proof.Machine

open Sys2Proof

/-! ### The absorbing steps (41_digest_core R98 to R100) -/

/-- An `ADDR_W`-bit register that moves on inside the input space does not wrap (41_digest_core R111). -/
theorem truncAddr_add_toNat {c : Config} (hc : c.Legal) {p k : Word} (h : p.toNat + k.toNat < 2 ^ c.addrW) :
    (truncAddr c (p + k)).toNat = p.toNat + k.toNat := by
  have hspace : 2 ^ c.addrW ≤ 2 ^ 64 := Nat.pow_le_pow_right (by decide) hc.2.1
  have hsum : (p + k).toNat = p.toNat + k.toNat := BitVec.toNat_add_of_lt (by omega)
  rw [truncAddr_of_lt c _ (by omega), hsum]

section
variable {s : State} (hinside : s.work.ptr.toNat + s.work.rem.toNat ≤ s.spaceSize)

theorem bulkStep_rem (hrem : 64 < s.work.rem.toNat) : (bulkStep s).work.rem.toNat = s.work.rem.toNat - 64 :=
  BitVec.toNat_sub_of_le (BitVec.le_def.2 hrem.le)

theorem mediumStep_rem (hrem : 16 < s.work.rem.toNat) : (mediumStep s).work.rem.toNat = s.work.rem.toNat - 16 :=
  BitVec.toNat_sub_of_le (BitVec.le_def.2 hrem.le)

include hinside

theorem bulkStep_ptr (hc : s.cfg.Legal) (hrem : 64 < s.work.rem.toNat) : (bulkStep s).work.ptr.toNat = s.work.ptr.toNat + 64 :=
  truncAddr_add_toNat hc (k := 64) (lt_of_lt_of_le (Nat.add_lt_add_left hrem _) hinside)

theorem mediumStep_ptr (hc : s.cfg.Legal) (hrem : 16 < s.work.rem.toNat) : (mediumStep s).work.ptr.toNat = s.work.ptr.toNat + 16 :=
  truncAddr_add_toNat hc (k := 16) (lt_of_lt_of_le (Nat.add_lt_add_left hrem _) hinside)

/-- BULK has its step where its 64 bytes are left and in the input space. -/
theorem engineStep_bulk (hf : s.fsm = .bulk) (hrem : 64 < s.work.rem.toNat) :
    engineStep s = .next (recordReads (readSpan s.work.ptr.toNat 64) (bulkStep s)) := by
  have hmissing : missingAddress s = none := (missingAddress_eq_none s).2 fun a ha => by
    have hbounds := (mem_readSet_bulk hf a).1 ha
    omega
  have hguard : engineGuard s = none := by simp only [engineGuard, hf, if_neg (show ¬s.work.rem.toNat < 64 by omega), hmissing]
  rw [engineStep_of_guard hguard, engineEffect, readSet, hf]

/-- MEDIUM has its step where its 16 bytes are left and in the input space. -/
theorem engineStep_medium (hf : s.fsm = .medium) (hrem : 16 < s.work.rem.toNat) :
    engineStep s = .next (recordReads (readSpan s.work.ptr.toNat 16) (mediumStep s)) := by
  have hmissing : missingAddress s = none := (missingAddress_eq_none s).2 fun a ha => by
    have hbounds := (mem_readSet_medium hf a).1 ha
    omega
  have hguard : engineGuard s = none := by simp only [engineGuard, hf, if_neg (show ¬s.work.rem.toNat < 16 by omega), hmissing]
  rw [engineStep_of_guard hguard, engineEffect, readSet, hf]

end

/-- Settles O27: the step is `bulkStep`, whose registers do not leave their widths. -/
theorem bulkAbsorbsSixtyFourBytes : Obligations.BulkAbsorbsSixtyFourBytes := by
  unfold Obligations.BulkAbsorbsSixtyFourBytes
  intro s hc hf hrem hinside word
  refine ⟨(bulkStep s).work.ptr, (bulkStep s).work.rem, bulkStep_ptr hinside hc hrem, bulkStep_rem hrem, ?_⟩
  rw [engineStep_bulk hinside hf hrem, bulkStep_rem hrem]
  rfl

/-- Settles O28: FOLD has no guard and reads nothing, so that the step is `foldStep`. -/
theorem foldMergesTheLanes : Obligations.FoldMergesTheLanes := by
  unfold Obligations.FoldMergesTheLanes
  intro s hf
  rw [engineStep_of_no_read (by simp [hf]) (by simp [hf]) (by simp [hf]), engineEffect, hf]
  rfl

/-- Settles O29: the step is `mediumStep`, whose registers do not leave their widths. -/
theorem mediumAbsorbsSixteenBytes : Obligations.MediumAbsorbsSixteenBytes := by
  unfold Obligations.MediumAbsorbsSixteenBytes
  intro s hc hf hrem hinside
  refine ⟨(mediumStep s).work.ptr, (mediumStep s).work.rem, mediumStep_ptr hinside hc hrem, mediumStep_rem hrem, ?_⟩
  rw [engineStep_medium hinside hf hrem, mediumStep_rem hrem]
  rfl

/-! ### Completion and the steps before it -/

/-- An ENGINE step completes the command, or changes the ENGINE state and working registers alone. -/
theorem engineEffect_cases (s : State) :
    ((s.fsm = .fin2 ∨ s.fsm = .mixo) ∧ ∃ v draws, engineEffect s = complete v { s with draws := draws }) ∨
    (∃ work fsm, (fsm = .idle ↔ s.fsm = .idle) ∧ engineEffect s = { s with work := work, fsm := fsm }) := by
  cases hf : s.fsm <;> rw [engineEffect, hf]
  case idle => exact .inr ⟨s.work, s.fsm, by rw [hf], rfl⟩
  case bulk | fold | medium =>
    refine .inr ⟨_, _, iff_of_false ?_ nofun, rfl⟩
    split_ifs <;> exact nofun
  case tail => exact .inr ⟨_, .fin1, iff_of_false nofun nofun, rfl⟩
  case fin1 => exact .inr ⟨_, .fin2, iff_of_false nofun nofun, rfl⟩
  case fin2 =>
    obtain ⟨-, heq⟩ | ⟨-, heq⟩ := completeDigest_cases (mix64 s.work.w (pi4 ^^^ s.work.slen)) s
    · exact .inl ⟨.inl rfl, _, s.draws, heq⟩
    · exact .inl ⟨.inl rfl, _, _, heq⟩
  case mixo => exact .inl ⟨.inr rfl, _, s.draws, rfl⟩

theorem engineEffect_fin2 {s : State} (hf : s.fsm = .fin2) (hbroken : s.windowBroken = false) :
    engineEffect s = complete (mix64 s.work.w (pi4 ^^^ s.work.slen)) s := by
  rw [engineEffect, hf]
  exact completeDigest_of_windowBroken_false hbroken _

/-- Settles O34: the completion takes the next free value. -/
theorem brokenWindowStillCompletes : Obligations.BrokenWindowStillCompletes := by
  unfold Obligations.BrokenWindowStillCompletes
  intro s hf hbroken
  refine ⟨Config.freeWord s.draws, ?_⟩
  rw [engineStep_fin2 hf, fin2Step]
  obtain ⟨hstable, -⟩ | ⟨-, heq⟩ := completeDigest_cases (mix64 s.work.w (pi4 ^^^ s.work.slen)) s
  · cases hw : s.window with
    | none => simp [State.windowBroken, hw] at hbroken
    | some w => simp [State.windowBroken, hw, hstable w hw] at hbroken
  · rw [heq]
    rfl

/-- A transaction never changes RESULT (10_state R30, R32). -/
theorem hostTurn_result {e : Encoded} {s t : State} (h : hostTurn e s = .next t) : t.regs.result = s.regs.result := by
  obtain ⟨v, -, heq⟩ | ⟨-, slot, heq⟩ | ⟨-, slot, v, heq⟩ := hostTurn_cases e s
  all_goals obtain rfl := Host.Outcome.next.inj (heq.symm.trans h)
  · rw [(samePort_dispatch s v).regs]
  · rfl
  · exact writeOperand_result s slot v

/-- A store that completes is `hostStore` at an address that exists. -/
theorem storeTurn_eq_next {a : Nat} {b : Byte} {s t : State} (h : storeTurn a b s = .next t) :
    a < s.spaceSize ∧ t = hostStore a b s := by
  unfold storeTurn at h
  split at h
  · exact ⟨by assumption, (Host.Outcome.next.inj h).symm⟩
  · cases h

/-- Settles O49: a transaction and a store keep RESULT, and so does an ENGINE step that is no completion. -/
theorem onlyCompletionWritesResult : Obligations.OnlyCompletionWritesResult := by
  unfold Obligations.OnlyCompletionWritesResult
  intro s t hstep hne
  have hrun : runMove (nextMove s) (takeMove s) = .next t := hstep
  cases hmove : nextMove s <;> rw [hmove] at hrun
  case reset => exact .inl rfl
  case host e => exact absurd (hostTurn_result hrun) hne
  case store a b =>
    obtain ⟨-, rfl⟩ := storeTurn_eq_next hrun
    exact absurd rfl hne
  case engine =>
    obtain ⟨-, rfl⟩ := engineStep_next hrun
    obtain ⟨hf, v, draws, heq⟩ | ⟨work, fsm, -, heq⟩ := engineEffect_cases (takeMove s) <;> rw [heq] at hne ⊢
    · exact .inr ⟨rfl, hf, rfl, rfl, rfl⟩
    · exact absurd rfl hne

/-! ### STATUS (60_exceptions R156, R158, R159) -/

/-- While BUSY every transaction but an ABORT leaves the command in progress alone; OVR may be set. -/
theorem hostTurn_of_busy {e : Encoded} {s t : State} (hturn : hostTurn e s = .next t) (hbusy : s.status.busy = true)
    (hword : commandWord e ≠ some 0xF#64) :
    s.SameCommand t ∧ (t.status = s.status ∨ t.status = { s.status with ovr := true }) := by
  obtain ⟨v, hv, heq⟩ | ⟨-, slot, heq⟩ | ⟨-, slot, v, heq⟩ := hostTurn_cases e s
  all_goals obtain rfl := Host.Outcome.next.inj (heq.symm.trans hturn)
  · by_cases h0 : v = 0x0#64
    · subst h0
      exact ⟨⟨rfl, rfl, rfl⟩, .inl rfl⟩
    · rw [dispatch_of_busy hbusy h0 fun hF => hword (by rw [hv, hF])]
      exact ⟨⟨rfl, rfl, rfl⟩, .inr rfl⟩
  · exact ⟨⟨rfl, rfl, rfl⟩, .inl rfl⟩
  · exact ⟨sameCommand_writeOperand s slot v, .inl (writeOperand_status s slot v)⟩

/-- A transaction that changes STATUS is a command word other than NOP. -/
theorem commandWord_of_hostTurn_status_ne {e : Encoded} {s t : State} (hturn : hostTurn e s = .next t)
    (h : t.status ≠ s.status) : ∃ v, commandWord e = some v ∧ v ≠ 0x0#64 ∧ t = dispatch v s := by
  obtain ⟨v, hv, heq⟩ | ⟨-, slot, heq⟩ | ⟨-, slot, v, heq⟩ := hostTurn_cases e s
  all_goals obtain rfl := Host.Outcome.next.inj (heq.symm.trans hturn)
  · refine ⟨v, hv, fun h0 => h ?_, rfl⟩
    rw [h0]
    rfl
  · exact absurd rfl h
  · exact absurd (writeOperand_status s slot v) h

/-- Of the command words ABORT and an accepted one clear DONE. -/
theorem dispatch_done {v : Word} {s : State} (hdone : s.status.done = true) (h : (dispatch v s).status.done = false) :
    v = 0xF#64 ∨ (dispatch v s).status.busy = true := by
  obtain ⟨-, heq⟩ | ⟨hv, heq⟩ | ⟨-, -, -, heq⟩ | ⟨-, -, heq⟩ | ⟨-, -, heq⟩ | ⟨-, -, heq⟩ | ⟨-, -, -, -, -, -, heq⟩ :=
    dispatch_cases v s <;> rw [heq] at h ⊢
  · exact absurd (hdone.symm.trans h) nofun
  · exact .inl hv
  · exact absurd (hdone.symm.trans h) nofun
  · obtain ⟨-, heq⟩ | ⟨-, heq⟩ := acceptHash64_cases s <;> rw [heq] at h ⊢
    · exact nomatch h
    · exact .inr rfl
  · exact .inr rfl
  · exact .inr rfl
  · exact nomatch h

/-- Settles O52: STATUS is kept by a store, by an ENGINE step that is no completion, and by a transaction that is no
command; a completion sets DONE. -/
theorem statusChangesOnlyByCommandCompletionOrReset : Obligations.StatusChangesOnlyByCommandCompletionOrReset := by
  unfold Obligations.StatusChangesOnlyByCommandCompletionOrReset
  intro s t hstep
  have hrun : runMove (nextMove s) (takeMove s) = .next t := hstep
  cases hmove : nextMove s <;> rw [hmove] at hrun
  case reset => exact ⟨fun _ => .inl rfl, nofun, fun _ _ => .inl rfl⟩
  case store a b =>
    obtain ⟨-, rfl⟩ := storeTurn_eq_next hrun
    exact ⟨fun hne => absurd rfl hne, nofun, fun hdone hnot => absurd (hdone.symm.trans hnot) nofun⟩
  case engine =>
    obtain ⟨-, rfl⟩ := engineStep_next hrun
    obtain ⟨hf, v, draws, heq⟩ | ⟨work, fsm, -, heq⟩ := engineEffect_cases (takeMove s) <;> rw [heq]
    · exact ⟨fun _ => .inr (.inl ⟨rfl, hf⟩), nofun, fun _ hnot => nomatch hnot⟩
    · exact ⟨fun hne => absurd rfl hne, nofun, fun hdone hnot => absurd (hdone.symm.trans hnot) nofun⟩
  case host e =>
    refine ⟨fun hne => ?_, fun e' he hbusy hword => ?_, fun hdone hnot => ?_⟩
    · obtain ⟨v, hv, h0, -⟩ := commandWord_of_hostTurn_status_ne hrun hne
      exact .inr (.inr ⟨e, v, rfl, hv, h0⟩)
    · obtain rfl := Move.host.inj he
      exact (hostTurn_of_busy hrun hbusy hword).2
    · have hne : t.status ≠ (takeMove s).status := fun heq =>
        absurd (hdone.symm.trans ((congrArg Status.done heq).symm.trans hnot)) nofun
      obtain ⟨v, hv, -, rfl⟩ := commandWord_of_hostTurn_status_ne hrun hne
      obtain rfl | hbusy := dispatch_done (s := takeMove s) hdone hnot
      · exact .inr (.inl ⟨e, rfl, hv⟩)
      · exact .inr (.inr hbusy)

/-! ### What the ENGINE does not notice (10_state R33, 20_memory R66) -/

/-- What the HOST has read is no input of the ENGINE. -/
theorem engineStep_withRdata {s t : State} (rdata : Option Word) (h : engineStep s = .next t) :
    engineStep { s with rdata := rdata } = .next { t with rdata := rdata } := by
  obtain ⟨hg, rfl⟩ := engineStep_next h
  have heffect : engineEffect { s with rdata := rdata } = { engineEffect s with rdata := rdata } := by
    obtain ⟨cfg, status, regs, fsm, work, window, input, moves, rdata', reads, draws⟩ := s
    cases fsm with
    | fin2 => rcases window with _ | ⟨base, len, _ | _⟩ <;> rfl
    | _ => rfl
  refine (engineStep_of_guard (s := { s with rdata := rdata }) hg).trans ?_
  rw [heffect]
  rfl

section
variable (slot : Slot) (v : Word) (s : State)

theorem writeOperand_complete (r : Word) :
    complete r (writeOperand slot v s) = writeOperand slot v (complete r s) := by
  cases slot <;> rfl

theorem writeOperand_recordReads (addrs : List Nat) :
    recordReads addrs (writeOperand slot v s) = writeOperand slot v (recordReads addrs s) := by
  cases slot <;> rfl

theorem writeOperand_completeDigest (r : Word) :
    completeDigest r (writeOperand slot v s) = writeOperand slot v (completeDigest r s) := by
  obtain ⟨cfg, status, regs, fsm, work, window, input, moves, rdata, reads, draws⟩ := s
  rcases window with _ | ⟨base, len, _ | _⟩ <;> cases slot <;> rfl

/-- The ENGINE reads no operand register: an acceptance has copied what it needs. -/
theorem engineEffect_writeOperand : engineEffect (writeOperand slot v s) = writeOperand slot v (engineEffect s) := by
  cases hf : s.fsm <;> simp only [engineEffect, writeOperand_fsm, hf]
  case fin2 => simp only [fin2Step, writeOperand_work, writeOperand_completeDigest]
  case mixo => simp only [mixoStep, writeOperand_work, writeOperand_complete]
  all_goals cases slot <;> rfl

theorem readSet_writeOperand : readSet (writeOperand slot v s) = readSet s := by
  cases slot <;> rfl

theorem engineGuard_writeOperand : engineGuard (writeOperand slot v s) = engineGuard s := by
  cases slot <;> rfl

end

/-- Settles O50: guard, read set and effect all commute with the write. -/
theorem operandWritesDoNotDisturbTheEngine : Obligations.OperandWritesDoNotDisturbTheEngine := by
  unfold Obligations.OperandWritesDoNotDisturbTheEngine
  intro s t slot v hslot hstep
  obtain ⟨hguard, rfl⟩ := engineStep_next hstep
  refine ⟨_, _, exec_regWrite_of_ne_cmd hslot v s, ?_, exec_regWrite_of_ne_cmd hslot v _⟩
  rw [engineStep_of_guard ((engineGuard_writeOperand slot v s).trans hguard), readSet_writeOperand,
    engineEffect_writeOperand, writeOperand_recordReads]

/-! ### One clock cycle (20_memory R66, 60_exceptions R157) -/

theorem run_succ_of_step {s u : State} (h : step s = .next u) (k : Nat) :
    Sys2Proof.core.run (k + 1) s = Sys2Proof.core.run k u := by
  have hcore : Sys2Proof.core.step s = .next u := h
  simp only [Host.Core.run, hcore]

theorem run_one (s : State) : Sys2Proof.core.run 1 s = step s := by
  have hcore : Sys2Proof.core.step s = step s := rfl
  cases h : step s with
  | _ =>
    simp only [Host.Core.run, hcore, h]
    rfl

/-- A cycle with a write: the ENGINE's step, then the write. -/
theorem run_two_of_write {s u : State} {e : Encoded} {rest : List Move} (he : ∀ slot, decode e ≠ .ok (.regRead slot))
    (hmoves : s.moves = cycleMoves false (some e) true ++ rest)
    (hstep : engineStep { s with moves := rest, reads := [] } = .next u) :
    Sys2Proof.core.run 2 s = step { u with moves := .host e :: rest } := by
  rw [cycleMoves_of_write he] at hmoves
  have hfirst : step s = .next { u with moves := .host e :: rest } :=
    (step_of_moves hmoves).trans (engineStep_withMoves (.host e :: rest) hstep).2
  rw [run_succ_of_step hfirst, run_one]

theorem step_of_abort {s : State} {rest : List Move} (h : s.moves = .host (encode .abort) :: rest) :
    step s = .next (abortCommand { s with moves := rest, reads := [] }) :=
  step_of_moves h

/-- FIN2 and MIXO have their step in every state, and it is a completion. -/
theorem engineStep_completes {s : State} (hf : s.fsm = .fin2 ∨ s.fsm = .mixo) :
    engineStep s = .next (recordReads [] (engineEffect s)) := by
  obtain hf | hf := hf <;> exact engineStep_of_no_read (by simp [hf]) (by simp [hf]) (by simp [hf])

/-- Settles O53: the moves of the cycle in their order; an ABORT after a completion keeps the RESULT that it wrote. -/
theorem readsComeBeforeAndWritesAfterTheStep : Obligations.ReadsComeBeforeAndWritesAfterTheStep := by
  unfold Obligations.ReadsComeBeforeAndWritesAfterTheStep
  refine ⟨fun s u e slot rest hdecode hmoves hstep => ?_, fun s u e rest => run_two_of_write,
    fun s rest hf hmoves => ?_, fun e engine => rfl⟩
  · rw [cycleMoves_of_read hdecode] at hmoves
    have hfirst : step s = .next { s with moves := .engine :: rest, reads := [], rdata := some (readSlot slot s) } := by
      rw [stepRunsTheDecodedTransaction s e _ (.engine :: rest) hmoves hdecode, exec_regRead]
      cases slot <;> rfl
    rw [run_succ_of_step hfirst, run_one, step_of_moves rfl]
    exact engineStep_withRdata _ hstep
  · have hstep := engineStep_completes (s := { s with moves := rest, reads := [] }) hf
    refine ⟨_, _, hstep, (run_two_of_write (e := encode .abort) nofun hmoves hstep).trans (step_of_abort rfl), rfl, rfl, rfl, rfl,
      fun hmixo => ?_, fun hfin2 hbroken => ?_⟩
    · exact congrArg (·.regs.result) (engineEffect_mixo (s := { s with moves := rest, reads := [] }) hmixo)
    · exact congrArg (·.regs.result) (engineEffect_fin2 (s := { s with moves := rest, reads := [] }) hfin2 hbroken)

/-! ### The guard and the read set (20_memory R55, R56) -/

theorem Window.Running.unabsorbed_le {w : Window} {space : Nat} {work : Work} (hrun : w.Running space work) :
    work.ptr.toNat + work.rem.toNat ≤ space :=
  hrun.ptr_add_rem ▸ hrun.end_inside

/-- Within the bounds of 41_digest_core R107 and R111 the ENGINE's step has a meaning. -/
theorem engineGuard_of_phaseInv {s : State} (hphase : PhaseInv s.spaceSize s.fsm s.work s.window) :
    engineGuard s = none := by
  cases hf : s.fsm <;> rw [hf] at hphase
  case bulk =>
    obtain ⟨w, -, hrun, hmin⟩ := phaseInv_bulk.1 hphase
    exact (engineStep_next (engineStep_bulk hrun.unabsorbed_le hf hmin)).1
  case medium =>
    obtain ⟨w, -, hrun, hmin, -⟩ := phaseInv_medium.1 hphase
    exact (engineStep_next (engineStep_medium hrun.unabsorbed_le hf hmin)).1
  case tail =>
    obtain ⟨w, -, hrun, hmax, -⟩ := phaseInv_tail.1 hphase
    exact (engineStep_next (engineStep_tail hf hmax hrun.unabsorbed_le)).1
  case idle | fold | fin1 | fin2 | mixo => simp only [engineGuard, hf]

/-- Settles O43: the ENGINE by `engineGuard_of_phaseInv`; a transaction and a reset never stop, and the store is legal. -/
theorem noReachableStepStops : Obligations.NoReachableStepStops := by
  unfold Obligations.NoReachableStepStops
  intro s h hlegal
  change ∃ t, runMove (nextMove s) (takeMove s) = .next t
  cases hmove : nextMove s <;> rw [hmove] at hlegal
  case engine => exact ⟨_, engineStep_of_guard (engineGuard_of_phaseInv h.takeMove.phase_inv)⟩
  case host e => exact ⟨_, hostTurn_eq_next e _⟩
  case reset => exact ⟨_, rfl⟩
  case store a b => exact ⟨_, if_pos hlegal⟩

theorem insertAddress_pairwise (a : Nat) {l : List Nat} (h : l.Pairwise (· < ·)) :
    (insertAddress a l).Pairwise (· < ·) := by
  induction l with
  | nil => exact List.pairwise_singleton _ a
  | cons x xs ih =>
    obtain ⟨hx, hxs⟩ := List.pairwise_cons.1 h
    rw [insertAddress]
    split_ifs with hlt heq
    · refine List.pairwise_cons.2 ⟨fun y hy => ?_, h⟩
      obtain rfl | hy := List.mem_cons.1 hy
      · exact hlt
      · exact hlt.trans (hx y hy)
    · exact h
    · refine List.pairwise_cons.2 ⟨fun y hy => ?_, ih hxs⟩
      obtain rfl | hy := (mem_insertAddress a y xs).1 hy
      · omega
      · exact hx y hy

theorem addressSet_pairwise (l : List Nat) : (addressSet l).Pairwise (· < ·) := by
  induction l with
  | nil => exact .nil
  | cons a l ih => exact insertAddress_pairwise a ih

theorem readSpan_pairwise (addr n : Nat) : (readSpan addr n).Pairwise (· < ·) :=
  List.pairwise_lt_range'

/-- A read set is ascending and without repeats (log 14). -/
theorem readSet_pairwise (s : State) : (readSet s).Pairwise (· < ·) := by
  cases hf : s.fsm <;> simp only [readSet, hf]
  case idle | fold | fin1 | fin2 | mixo => exact .nil
  case bulk | medium => exact readSpan_pairwise _ _
  case tail =>
    split
    · exact .nil
    all_goals exact addressSet_pairwise _

/-- The rows of R55, where TAIL has no more than its 16 bytes. -/
theorem mem_readSet_iff {s : State} (hguard : engineGuard s = none) (a : Nat) :
    let p := s.work.ptr.toNat
    let r := s.work.rem.toNat
    a ∈ readSet s ↔
      (s.fsm = .bulk ∧ p ≤ a ∧ a ≤ p + 63) ∨ (s.fsm = .medium ∧ p ≤ a ∧ a ≤ p + 15) ∨
      (s.fsm = .tail ∧ 1 ≤ r ∧ r ≤ 3 ∧ (a = p ∨ a = p + r / 2 ∨ a = p + r - 1)) ∨
      (s.fsm = .tail ∧ 4 ≤ r ∧ r ≤ 8 ∧ ((p ≤ a ∧ a ≤ p + 3) ∨ (p + r - 4 ≤ a ∧ a ≤ p + r - 1))) ∨
      (s.fsm = .tail ∧ 9 ≤ r ∧ r ≤ 16 ∧ ((p ≤ a ∧ a ≤ p + 7) ∨ (p + r - 8 ≤ a ∧ a ≤ p + r - 1))) := by
  intro p r
  cases hf : s.fsm
  case idle | fold | fin1 | fin2 | mixo => simp [readSet, hf]
  case bulk =>
    rw [mem_readSet_bulk hf]
    simp only [reduceCtorEq, true_and, false_and, or_false]
    omega
  case medium =>
    rw [mem_readSet_medium hf]
    simp only [reduceCtorEq, true_and, false_and, false_or, or_false]
    omega
  case tail =>
    have hmax : r ≤ 16 := Nat.le_of_not_lt fun hgt => by simp [engineGuard, hf, r, hgt] at hguard
    rw [mem_readSet_tail hf hmax]
    simp only [reduceCtorEq, true_and, false_and, false_or]
    omega

/-- Only an ENGINE step reads. -/
theorem step_reads_cases {s t : State} (h : step s = .next t) :
    (nextMove s = .engine ∧ engineGuard (takeMove s) = none ∧ t.reads = readSet (takeMove s)) ∨
    (nextMove s ≠ .engine ∧ t.reads = []) := by
  obtain ⟨hm, hguard, rfl⟩ | ⟨e, i, hm, -, rfl⟩ | ⟨e, r, hm, -, rfl⟩ | ⟨hm, rfl⟩ | ⟨a, b, hm, -, rfl⟩ := step_cases h
  · exact .inl ⟨hm, hguard, rfl⟩
  all_goals refine .inr ⟨by rw [hm]; exact nofun, ?_⟩
  · exact (sameOutside_execState (takeMove s) i).reads
  · exact (sameOutside_illegalCommand (takeMove s)).reads
  · rfl
  · rfl

/-- Settles O46: an ENGINE step records its read set, and every other move leaves the record empty. -/
theorem readSetsAreTheTable : Obligations.ReadSetsAreTheTable := by
  unfold Obligations.ReadSetsAreTheTable
  intro s t hstep p r
  obtain ⟨hmove, hguard, hreads⟩ | ⟨hmove, hreads⟩ := step_reads_cases hstep <;> rw [hreads]
  · exact ⟨readSet_pairwise _, fun a => (mem_readSet_iff hguard a).trans (and_iff_right hmove).symm⟩
  · exact ⟨.nil, fun a => iff_of_false List.not_mem_nil fun ⟨hengine, _⟩ => hmove hengine⟩

/-! ### The bytes that an ENGINE step uses (20_memory R55) -/

section
variable {s : State} {m : Memory}

theorem completeDigest_withInput (v : Word) :
    completeDigest v { s with input := m } = { completeDigest v s with input := m } := by
  obtain ⟨cfg, status, regs, fsm, work, window, input, moves, rdata, reads, draws⟩ := s
  rcases window with _ | ⟨base, len, _ | _⟩ <;> rfl

variable (hsame : ∀ a ∈ readSet s, Memory.read m a = s.inputByte a)
include hsame

theorem bulkStep_withInput (hf : s.fsm = .bulk) : bulkStep { s with input := m } = { bulkStep s with input := m } := by
  have hword : ∀ k, k + 8 ≤ 64 → memRead (State.inputByte { s with input := m }) (s.work.ptr.toNat + k) 8 =
      memRead s.inputByte (s.work.ptr.toNat + k) 8 := fun k hk =>
    memRead_congr _ 8 fun a hlow hhigh => hsame a ((mem_readSet_bulk hf a).2 ⟨by omega, by omega⟩)
  simp only [bulkStep, hword 0 (by decide), hword 8 (by decide), hword 16 (by decide), hword 24 (by decide),
    hword 32 (by decide), hword 40 (by decide), hword 48 (by decide), hword 56 (by decide)]

theorem mediumStep_withInput (hf : s.fsm = .medium) :
    mediumStep { s with input := m } = { mediumStep s with input := m } := by
  have hword : ∀ a, s.work.ptr.toNat ≤ a → a + 8 ≤ s.work.ptr.toNat + 16 →
      memRead (State.inputByte { s with input := m }) a 8 = memRead s.inputByte a 8 := fun a hmin hmax =>
    memRead_congr a 8 fun b hlow hhigh => hsame b ((mem_readSet_medium hf b).2 ⟨by omega, by omega⟩)
  simp only [mediumStep, hword s.work.ptr.toNat (by omega) (by omega), hword (s.work.ptr.toNat + 8) (by omega) (by omega)]

theorem tailStep_withInput (hf : s.fsm = .tail) (hmax : s.work.rem.toNat ≤ 16) :
    tailStep { s with input := m } = { tailStep s with input := m } := by
  have hshift : Absorb.Shifted s.inputByte (State.inputByte { s with input := m }) 0 s.absorb s.absorb :=
    { cs := rfl, ds := rfl, pos := (Nat.zero_add _).symm, rem := rfl
      bytes := fun i hlow hhigh => by
        rw [Nat.zero_add]
        exact hsame i ((mem_readSet_tail hf hmax i).2 ⟨hlow, hhigh⟩) }
  have htail : tailValues (State.inputByte { s with input := m }) s.work.ptr.toNat s.work.rem.toNat =
      tailValues s.inputByte s.work.ptr.toNat s.work.rem.toNat := hshift.tailValues_eq
  simp only [tailStep, htail]

theorem engineEffect_withInput (hguard : engineGuard s = none) :
    engineEffect { s with input := m } = { engineEffect s with input := m } := by
  cases hf : s.fsm <;> simp only [engineEffect, hf]
  case bulk => exact bulkStep_withInput hsame hf
  case medium => exact mediumStep_withInput hsame hf
  case tail =>
    exact tailStep_withInput hsame hf (Nat.le_of_not_lt fun hgt => by simp [engineGuard, hf, hgt] at hguard)
  case fin2 => exact completeDigest_withInput _
  case fold | fin1 | mixo => rfl

end

/-- Settles O47: guard and read set do not look at the input space, and the effect looks only at the read set. -/
theorem stepsUseOnlyTheirReadSet : Obligations.StepsUseOnlyTheirReadSet := by
  unfold Obligations.StepsUseOnlyTheirReadSet
  intro s t m hstep hsame
  obtain ⟨hguard, rfl⟩ := engineStep_next hstep
  refine (engineStep_of_guard (s := { s with input := m }) hguard).trans ?_
  rw [engineEffect_withInput hsame hguard]
  rfl

end Sys2Proof.Machine
end

section
/-! SUPPORT. How many ENGINE steps a command takes (41_digest_core R106): the ENGINE states of the steps still to come, of
which every step takes the first away. -/

namespace Sys2Proof.Machine

open Sys2Proof

/-! ### Step counts -/

section
variable {n : Nat}

theorem bulkCount_of_le (h : n ≤ 64) : bulkCount n = 0 := if_neg (by omega)

theorem bulkCount_of_gt (h : 64 < n) : bulkCount n = bulkCount (n - 64) + 1 := by
  unfold bulkCount
  split_ifs <;> omega

theorem afterBulk_of_le (h : n ≤ 64) : afterBulk n = n := by
  rw [afterBulk, bulkCount_of_le h]
  rfl

theorem afterBulk_of_gt (h : 64 < n) : afterBulk n = afterBulk (n - 64) := by
  rw [afterBulk, afterBulk, bulkCount_of_gt h]
  omega

theorem mediumCount_of_le (h : n ≤ 16) : mediumCount n = 0 := by
  rw [mediumCount, afterBulk_of_le (by omega), if_neg (by omega)]

theorem mediumCount_of_gt (h : 16 < n) (hmax : n ≤ 64) : mediumCount n = mediumCount (n - 16) + 1 := by
  rw [mediumCount, mediumCount, afterBulk_of_le hmax, afterBulk_of_le (by omega)]
  split_ifs <;> omega

/-- A BULK step leaves the MEDIUM steps to come as they are. -/
theorem mediumCount_sub_bulk (h : 64 < n) : mediumCount n = mediumCount (n - 64) := by
  rw [mediumCount, mediumCount, afterBulk_of_gt h]

/-- What the bulk and medium phases leave for the tail: up to 16 bytes, and none only of an empty window. -/
theorem afterMedium_bounds (n : Nat) : afterMedium n ≤ 16 ∧ (afterMedium n = 0 ↔ n = 0) := by
  simp only [afterMedium, mediumCount, afterBulk, bulkCount]
  split_ifs <;> omega

end

/-! ### The steps to come -/

/-- From MEDIUM or TAIL on, with `rem` bytes left. -/
def mediumTrace (rem : Nat) : List Fsm := List.replicate (mediumCount rem) .medium ++ [.tail, .fin1, .fin2]

/-- The ENGINE states that the steps of the command in progress will be taken in, in order, with `rem` bytes left. For a
whole window they are `hashTrace` (`phase_trace`), and `State.stepsLeft` is their number (`stepsLeft_eq_length_trace`). -/
def Fsm.trace (rem : Nat) : Fsm → List Fsm
  | .idle => []
  | .bulk => hashTrace rem
  | .fold => .fold :: mediumTrace rem
  | .medium => mediumTrace rem
  | .tail => [.tail, .fin1, .fin2]
  | .fin1 => [.fin1, .fin2]
  | .fin2 => [.fin2]
  | .mixo => [.mixo]

def State.trace (s : State) : List Fsm := s.fsm.trace s.work.rem.toNat

section
variable {n : Nat}

theorem mediumTrace_of_le (h : n ≤ 16) : mediumTrace n = [.tail, .fin1, .fin2] := by
  rw [mediumTrace, mediumCount_of_le h]
  rfl

theorem mediumTrace_of_gt (h : 16 < n) (hmax : n ≤ 64) : mediumTrace n = .medium :: mediumTrace (n - 16) := by
  rw [mediumTrace, mediumCount_of_gt h hmax]
  rfl

theorem hashTrace_of_le (h : n ≤ 64) : hashTrace n = mediumTrace n := by
  rw [hashTrace, bulkCount_of_le h, if_neg (by omega)]
  rfl

theorem hashTrace_of_gt (h : 64 < n) :
    hashTrace n = .bulk :: (if n - 64 > 64 then .bulk else .fold : Fsm).trace (n - 64) := by
  rw [hashTrace, bulkCount_of_gt h, mediumCount_sub_bulk h, if_pos h]
  split_ifs with hmore
  · rw [Fsm.trace, hashTrace, if_pos hmore]
    rfl
  · rw [bulkCount_of_le (by omega)]
    rfl

theorem phase_trace (n : Nat) : (phase n).trace n = hashTrace n := by
  rw [phase_eq]
  split_ifs with htail hmedium
  · rw [hashTrace_of_le (by omega), mediumTrace_of_le htail]
    rfl
  · exact (hashTrace_of_le hmedium).symm
  · rfl

theorem length_mediumTrace (n : Nat) : (mediumTrace n).length = mediumCount n + 3 := by
  simp [mediumTrace]

theorem length_hashTrace (n : Nat) : (hashTrace n).length = hashSteps n := by
  unfold hashTrace hashSteps
  split_ifs
  all_goals
    simp
    omega

end

section
variable (s : State)

theorem stepsLeft_eq_length_trace : s.stepsLeft = s.trace.length := by
  rw [State.stepsLeft, State.trace]
  cases s.fsm <;> simp only [Fsm.trace, length_hashTrace, length_mediumTrace, List.length_cons, List.length_nil]
  omega

theorem trace_eq_nil_iff : s.trace = [] ↔ s.fsm = .idle := by
  rw [State.trace]
  cases s.fsm <;> simp [Fsm.trace, mediumTrace, hashTrace]

end

/-- An ENGINE step takes the first of the steps to come away. -/
theorem trace_engineEffect {s : State} (hphase : PhaseInv s.spaceSize s.fsm s.work s.window) (hf : s.fsm ≠ .idle) :
    s.trace = s.fsm :: (engineEffect s).trace := by
  cases hfsm : s.fsm <;> rw [hfsm] at hphase <;> simp only [State.trace, engineEffect, hfsm]
  case idle => exact absurd hfsm hf
  case bulk =>
    obtain ⟨w, -, -, hmin⟩ := phaseInv_bulk.1 hphase
    rw [bulkStep_rem hmin]
    exact hashTrace_of_gt hmin
  case fold =>
    simp only [foldStep]
    split_ifs with hmore
    · rfl
    · rw [Fsm.trace, mediumTrace_of_le (by omega)]
      rfl
  case medium =>
    obtain ⟨w, -, -, hmin, hmax⟩ := phaseInv_medium.1 hphase
    rw [mediumStep_rem hmin, Fsm.trace, mediumTrace_of_gt hmin hmax]
    simp only [mediumStep]
    split_ifs with hmore
    · rfl
    · rw [mediumTrace_of_le (by omega)]
      rfl
  case fin2 =>
    rw [fin2Step, completeDigest_fsm]
    rfl
  case tail | fin1 | mixo => rfl

/-! ### Transactions while BUSY -/

theorem hostTurn_of_commandWord {e : Encoded} {v : Word} (h : commandWord e = some v) (s : State) :
    hostTurn e s = .next (dispatch v s) := by
  obtain ⟨v', hv, heq⟩ | ⟨hnone, -⟩ | ⟨hnone, -⟩ := hostTurn_cases e s
  · rw [heq, Option.some.inj (h.symm.trans hv)]
  all_goals cases hnone.symm.trans h

theorem stepsLeft_congr {s t : State} (hfsm : t.fsm = s.fsm) (hwork : t.work = s.work) : t.stepsLeft = s.stepsLeft := by
  rw [State.stepsLeft, State.stepsLeft, hfsm, hwork]

/-- A transaction that leaves BUSY set leaves the command in progress as it is. -/
theorem hostTurn_stepsLeft {e : Encoded} {s t : State} (hturn : hostTurn e s = .next t) (hbusy : s.status.busy = true)
    (ht : t.status.busy = true) : t.stepsLeft = s.stepsLeft := by
  by_cases habort : commandWord e = some 0xF#64
  · obtain rfl := Host.Outcome.next.inj ((hostTurn_of_commandWord habort s).symm.trans hturn)
    exact nomatch ht
  · obtain ⟨⟨hfsm, hwork, -⟩, -⟩ := hostTurn_of_busy hturn hbusy habort
    exact stepsLeft_congr hfsm hwork

/-- Settles O54: an ENGINE step shortens the trace by one, and the trace is empty exactly in IDLE. -/
theorem everyEngineStepCountsDown : Obligations.EveryEngineStepCountsDown := by
  unfold Obligations.EveryEngineStepCountsDown
  intro s t h hbusy hstep
  have ht : t.Inv := everyStepKeepsTheInvariant s t h hstep
  have hrun : runMove (nextMove s) (takeMove s) = .next t := hstep
  cases hmove : nextMove s <;> rw [hmove] at hrun
  case engine =>
    refine ⟨fun _ => ⟨?_, ?_⟩, fun hne => absurd rfl hne⟩
    · obtain ⟨-, rfl⟩ := engineStep_next hrun
      have htrace := trace_engineEffect h.takeMove.phase_inv (h.busy_iff.1 hbusy)
      rw [stepsLeft_eq_length_trace, stepsLeft_eq_length_trace]
      exact (congrArg List.length htrace).symm
    · rw [stepsLeft_eq_length_trace, List.length_eq_zero_iff, trace_eq_nil_iff, ← Bool.not_eq_true, ht.busy_iff, not_not]
  case host e => exact ⟨nofun, fun _ => hostTurn_stepsLeft (s := takeMove s) hrun hbusy⟩
  case reset =>
    obtain rfl := Host.Outcome.next.inj hrun
    exact ⟨nofun, fun _ => nofun⟩
  case store a b =>
    obtain ⟨-, rfl⟩ := storeTurn_eq_next hrun
    exact ⟨nofun, fun _ _ => rfl⟩

end Sys2Proof.Machine
end

section
/-! SUPPORT. Runs of a command (41_digest_core R106, R109): an ENGINE step keeps what the command in progress will write, so
that at its completion RESULT is the digest of the window. -/

namespace Sys2Proof.Machine

open Sys2Proof

/-! ### What the command in progress will write -/

/-- The clauses of the invariant about the command in progress, with its window unchanged (20_memory R64). `State.Inv` asks
for more than the statements about whole runs give, which begin in any idle state; an acceptance leads here whatever the
rest of the state is (`acceptHash64_sound`). -/
structure State.Sound (s : State) : Prop where
  cfg_legal : s.cfg.Legal
  phase_inv : PhaseInv s.spaceSize s.fsm s.work s.window
  unbroken : s.windowBroken = false

section
variable {s : State} (hinside : s.work.ptr.toNat + s.work.rem.toNat ≤ s.spaceSize) (hc : s.cfg.Legal)
include hinside hc

/-- BULK is one iteration of the bulk loop of R95, `ptr` in the place of `pos`. -/
theorem absorb_bulkStep (hrem : 64 < s.work.rem.toNat) : (bulkStep s).absorb = bulkBlock s.inputByte s.absorb := by
  rw [State.absorb, bulkStep_ptr hinside hc hrem, bulkStep_rem hrem]
  rfl

/-- MEDIUM is one iteration of the medium loop. -/
theorem absorb_mediumStep (hrem : 16 < s.work.rem.toNat) : (mediumStep s).absorb = mediumBlock s.inputByte s.absorb := by
  rw [State.absorb, mediumStep_ptr hinside hc hrem, mediumStep_rem hrem]
  rfl

end

/-- Where BULK goes on, R95 goes on with its loop or with the fold. -/
theorem pendingResult_bulkStep {s : State} (hrem : 64 < s.work.rem.toNat) :
    (bulkStep s).pendingResult = digestFromBulk s.inputByte (bulkStep s).absorb s.work.slen := by
  have hrem' := bulkStep_rem hrem
  have hfsm : (bulkStep s).fsm = if s.work.rem.toNat - 64 > 64 then .bulk else .fold := rfl
  rw [State.pendingResult, hfsm]
  split_ifs with hmore
  · rfl
  · exact (digestFromBulk_of_le (v := (bulkStep s).absorb) (hrem'.trans_le (by omega))).symm

/-- MEDIUM and TAIL are both in the medium phase of R95. -/
theorem pendingResult_of_medium_or_tail {s : State} {p : Prop} [Decidable p]
    (hf : s.fsm = if p then .medium else .tail) :
    s.pendingResult = digestFromMedium s.inputByte s.absorb s.work.slen := by
  rw [State.pendingResult, hf]
  split_ifs <;> rfl

section
variable {s : State} (h : s.Sound)
include h

/-- An ENGINE step keeps what the command will write; a completion writes it. -/
theorem State.Sound.pendingResult_engineEffect : (engineEffect s).pendingResult = s.pendingResult := by
  have hphase := h.phase_inv
  cases hf : s.fsm <;> rw [hf] at hphase <;> rw [State.pendingResult.eq_def s, engineEffect, hf]
  case idle => simp only [State.pendingResult, hf]
  case bulk =>
    obtain ⟨w, -, hrun, hmin⟩ := phaseInv_bulk.1 hphase
    rw [pendingResult_bulkStep hmin, absorb_bulkStep hrun.unabsorbed_le h.cfg_legal hmin]
    exact (digestFromBulk_of_gt (v := s.absorb) hmin).symm
  case fold => exact pendingResult_of_medium_or_tail (s := foldStep s) rfl
  case medium =>
    obtain ⟨w, -, hrun, hmin, -⟩ := phaseInv_medium.1 hphase
    rw [pendingResult_of_medium_or_tail (s := mediumStep s) rfl, absorb_mediumStep hrun.unabsorbed_le h.cfg_legal hmin]
    exact (digestFromMedium_of_gt (v := s.absorb) hmin).symm
  case tail =>
    obtain ⟨w, -, hrun, hmax, -⟩ := phaseInv_tail.1 hphase
    exact (digestFromMedium_of_le (v := s.absorb) hmax).symm
  case fin2 =>
    rw [fin2Step, completeDigest_of_windowBroken_false h.unbroken]
    rfl
  case fin1 | mixo => rfl

/-- Every ENGINE step keeps the bounds of 41_digest_core R107 and R111. -/
theorem State.Sound.phaseInv_engineEffect :
    PhaseInv s.spaceSize (engineEffect s).fsm (engineEffect s).work (engineEffect s).window := by
  have hphase := h.phase_inv
  cases hf : s.fsm <;> rw [hf] at hphase <;> simp only [Machine.engineEffect, hf]
  case idle => exact hphase
  case bulk =>
    obtain ⟨w, hw, hrun, hmin⟩ := phaseInv_bulk.1 hphase
    obtain ⟨hrun', hrem'⟩ := hrun.absorb (work' := (bulkStep s).work) (k := 64) h.cfg_legal hmin rfl rfl rfl
    change PhaseInv s.spaceSize _ (bulkStep s).work s.window
    rw [hw]
    exact phaseInv_bulk_or_fold hrun' hrem' (Nat.le_sub_of_add_le' hmin) (hmin.trans hrun.rem_le)
  case fold =>
    obtain ⟨w, hw, hrun, hmin, hmax, -⟩ := phaseInv_fold.1 hphase
    change PhaseInv s.spaceSize _ (foldStep s).work s.window
    rw [hw]
    exact phaseInv_medium_or_tail { hrun with } rfl hmin hmax
  case medium =>
    obtain ⟨w, hw, hrun, hmin, hmax⟩ := phaseInv_medium.1 hphase
    obtain ⟨hrun', hrem'⟩ := hrun.absorb (work' := (mediumStep s).work) (k := 16) h.cfg_legal hmin rfl rfl rfl
    change PhaseInv s.spaceSize _ (mediumStep s).work s.window
    rw [hw]
    exact phaseInv_medium_or_tail hrun' hrem' (Nat.le_sub_of_add_le' hmin) (Nat.sub_le_of_le_add (hmax.trans (by decide)))
  case tail =>
    obtain ⟨w, hw, hrun, hbounds⟩ := phaseInv_tail.1 hphase
    change PhaseInv s.spaceSize .fin1 (tailStep s).work s.window
    rw [hw]
    exact ⟨{ hrun with }, hbounds⟩
  case fin1 =>
    change PhaseInv s.spaceSize .fin2 (fin1Step s).work s.window
    cases hw : s.window with
    | none =>
      rw [hw] at hphase
      exact hphase
    | some w =>
      rw [hw] at hphase
      obtain ⟨hrun, hbounds⟩ := hphase
      exact ⟨{ hrun with }, hbounds⟩
  case fin2 =>
    rw [fin2Step, completeDigest_of_windowBroken_false h.unbroken]
    trivial
  case mixo => trivial

theorem State.Sound.engineEffect : (engineEffect s).Sound := by
  have hcfg := (sameOutside_engineEffect s).cfg
  refine ⟨hcfg ▸ h.cfg_legal, ?_, ?_⟩
  · rw [State.spaceSize, hcfg]
    exact h.phaseInv_engineEffect
  · obtain ⟨-, v, draws, heq⟩ | ⟨work, fsm, -, heq⟩ := engineEffect_cases s <;> rw [heq]
    · rfl
    · exact h.unbroken

theorem State.Sound.trace_engineEffect : (Machine.engineEffect s).trace = s.trace.tail := by
  by_cases hf : s.fsm = .idle
  · have heffect : Machine.engineEffect s = s := by simp only [Machine.engineEffect, hf]
    rw [heffect, (trace_eq_nil_iff s).2 hf, List.tail_nil]
  · rw [Machine.trace_engineEffect h.phase_inv hf, List.tail_cons]

/-- The ENGINE state is the first of the steps to come. -/
theorem State.Sound.fsm_eq_headD : s.fsm = s.trace.headD .idle := by
  by_cases hf : s.fsm = .idle
  · rw [(trace_eq_nil_iff s).2 hf, hf, List.headD_nil]
  · rw [Machine.trace_engineEffect h.phase_inv hf, List.headD_cons]

end

/-! ### Acceptance (41_digest_core R97) -/

theorem pendingResult_of_phase {s : State} {n : Nat} (hf : s.fsm = phase n) :
    s.pendingResult =
      (if n > 64 then digestFromBulk else digestFromMedium) s.inputByte s.absorb s.work.slen := by
  rw [State.pendingResult, hf, phase_eq_ite_gt]
  split_ifs <;> rfl

/-- An accepted HASH64 will write the digest of its window, in the steps of R106. -/
theorem acceptHash64_sound {s : State} (hc : s.cfg.Legal)
    (hfits : s.regs.src.toNat + s.regs.len.toNat ≤ s.spaceSize) :
    (acceptHash64 s).Sound ∧
    (acceptHash64 s).pendingResult = hash64 (windowBytes s.input s.regs.src.toNat s.regs.len.toNat) s.regs.seed ∧
    (acceptHash64 s).trace = hashTrace s.regs.len.toNat ∧
    (acceptHash64 s).window = some { base := s.regs.src.toNat, len := s.regs.len.toNat, stable := true } ∧
    (acceptHash64 s).status = Status.accepted ∧ (acceptHash64 s).fsm = phase s.regs.len.toNat ∧
    (acceptHash64 s).work.ptr = s.regs.src ∧ (acceptHash64 s).work.rem = s.regs.len := by
  obtain ⟨hpast, -⟩ | ⟨-, heq⟩ := acceptHash64_cases s
  · exact absurd hfits (Nat.not_le.2 hpast)
  · rw [heq]
    refine ⟨⟨hc, phaseInv_phase ⟨Nat.le_refl _, rfl, hfits, rfl⟩ rfl rfl, rfl⟩, ?_, phase_trace _, rfl, rfl, rfl, rfl, rfl⟩
    rw [pendingResult_of_phase rfl, hash64_windowBytes, BitVec.ofNat_toNat, BitVec.setWidth_eq]
    rfl

/-! ### A HASH64 with no other move pending -/

/-- The state that the ENGINE's turn leads to. -/
def State.engineTurn (s : State) : State := recordReads (readSet s) (engineEffect { s with reads := [] })

theorem step_eq_engineTurn {s : State} (h : s.Sound) (hmoves : s.moves = []) : step s = .next s.engineTurn :=
  (step_of_no_moves hmoves).trans
    (engineStep_of_guard (s := { s with reads := [] }) (engineGuard_of_phaseInv h.phase_inv))

/-- A HASH64, from its acceptance to after its completion, that no other move has disturbed: of the registers `regs` at
acceptance RESULT alone changes, and `v` is what it will write or has written. -/
structure State.RunsAlone (regs : Regs) (v : Word) (s : State) : Prop where
  sound : s.Sound
  moves_nil : s.moves = []
  status_eq : s.status = if s.fsm = .idle then Status.accepted.completed else Status.accepted
  regs_eq : s.regs = { regs with result := s.regs.result }
  pending_eq : s.pendingResult = v

section
variable {regs : Regs} {v : Word} {s : State} (h : s.RunsAlone regs v)
include h

theorem State.RunsAlone.sound_noReads : State.Sound { s with reads := [] } := { h.sound with }

theorem State.RunsAlone.step_eq : step s = .next s.engineTurn := step_eq_engineTurn h.sound h.moves_nil

theorem State.RunsAlone.trace_engineTurn : s.engineTurn.trace = s.trace.tail := h.sound_noReads.trace_engineEffect

/-- The ENGINE's turn keeps it; STATUS is completed in the step that leads to IDLE. -/
theorem State.RunsAlone.engineTurn : s.engineTurn.RunsAlone regs v where
  sound := { h.sound_noReads.engineEffect with }
  moves_nil := (sameOutside_engineEffect _).moves.trans h.moves_nil
  pending_eq := h.sound_noReads.pendingResult_engineEffect.trans h.pending_eq
  status_eq := by
    obtain ⟨hf, r, draws, heq⟩ | ⟨work, fsm, hidle, heq⟩ := engineEffect_cases { s with reads := [] }
    · have hrunning : s.fsm ≠ .idle := by obtain hf | hf := hf <;> exact hf ▸ nofun
      rw [State.engineTurn, heq]
      simp [h.status_eq, hrunning]
    · rw [State.engineTurn, heq]
      simp [h.status_eq, hidle]
  regs_eq := by
    obtain ⟨-, r, draws, heq⟩ | ⟨work, fsm, -, heq⟩ := engineEffect_cases { s with reads := [] }
    · rw [State.engineTurn, heq, recordReads_regs, complete_regs, h.regs_eq]
    · rw [State.engineTurn, heq]
      exact h.regs_eq

end

theorem State.RunsAlone.run {regs : Regs} {v : Word} (k : Nat) : ∀ {s : State}, s.RunsAlone regs v →
    ∃ t : State, Sys2Proof.core.run k s = .next t ∧ t.RunsAlone regs v ∧ t.trace = s.trace.drop k := by
  induction k with
  | zero => exact fun h => ⟨_, rfl, h, rfl⟩
  | succ k ih =>
    intro s h
    obtain ⟨t, hrun, ht, htrace⟩ := ih h.engineTurn
    refine ⟨t, (run_succ_of_step h.step_eq k).trans hrun, ht, ?_⟩
    rw [htrace, h.trace_engineTurn, List.drop_tail]

section
variable {s : State} (hc : s.cfg.Legal) (hidle : s.status.busy = false)
  (hfits : s.regs.src.toNat + s.regs.len.toNat ≤ 2 ^ s.cfg.addrW) (hmoves : s.moves = [.host (.cmd64 0x1#64)])
include hc hidle hfits hmoves

/-- The first step of such a run is the acceptance. -/
theorem hash64_starts :
    ∃ u, step s = .next u ∧
      u.RunsAlone s.regs (hash64 (windowBytes s.input s.regs.src.toNat s.regs.len.toNat) s.regs.seed) ∧
      u.trace = hashTrace s.regs.len.toNat ∧ u.fsm = phase s.regs.len.toNat ∧ u.work.ptr = s.regs.src ∧
      u.work.rem = s.regs.len := by
  obtain ⟨hsound, hpending, htrace, -, hstatus, hfsm, hptr, hrem⟩ :=
    acceptHash64_sound (s := { s with moves := [], reads := [] }) hc hfits
  have hstep : step s = .next (acceptHash64 { s with moves := [], reads := [] }) :=
    (stepRunsTheDecodedTransaction s _ .hash64 [] hmoves rfl).trans (exec_hash64_idle hidle)
  refine ⟨_, hstep, ⟨hsound, (sameOutside_acceptHash64 _).moves, ?_, ?_, hpending⟩, htrace, hfsm, hptr, hrem⟩
  · rw [hstatus, if_neg (hfsm ▸ phase_ne_idle _)]
  · rw [(samePort_acceptHash64 _).regs]

/-- After the acceptance and `k` steps more. -/
theorem run_hash64 (k : Nat) :
    ∃ t : State, Sys2Proof.core.run (k + 1) s = .next t ∧
      t.RunsAlone s.regs (hash64 (windowBytes s.input s.regs.src.toNat s.regs.len.toNat) s.regs.seed) ∧
      t.trace = (hashTrace s.regs.len.toNat).drop k := by
  obtain ⟨u, hstep, hu, htrace, -⟩ := hash64_starts hc hidle hfits hmoves
  obtain ⟨t, hrun, ht, hdrop⟩ := hu.run k
  exact ⟨t, (run_succ_of_step hstep k).trans hrun, ht, htrace ▸ hdrop⟩

end

/-- Settles O55: the trace at acceptance is `hashTrace`, and a state's ENGINE state is the first of what is left of it. -/
theorem hash64TakesItsStepsInOrder : Obligations.Hash64TakesItsStepsInOrder := by
  unfold Obligations.Hash64TakesItsStepsInOrder
  intro s hc hidle hfits hmoves len
  refine ⟨fun k _ => ?_, length_hashTrace len, afterMedium_bounds len⟩
  obtain ⟨t, hrun, ht, htrace⟩ := run_hash64 hc hidle hfits hmoves k
  refine ⟨t, hrun, ?_⟩
  rw [ht.sound.fsm_eq_headD, htrace]
  simp [List.headD_eq_head?_getD, List.head?_drop, List.getD_eq_getElem?_getD, len]

/-- Settles O56: when the trace is used up the ENGINE is IDLE, and what was to be written is in RESULT. -/
theorem hash64ComputesTheDigest : Obligations.Hash64ComputesTheDigest := by
  unfold Obligations.Hash64ComputesTheDigest
  intro s hc hidle hfits hmoves
  obtain ⟨t, hrun, ht, htrace⟩ := run_hash64 hc hidle hfits hmoves (hashSteps s.regs.len.toNat)
  have hdone : t.fsm = .idle := by
    rw [← trace_eq_nil_iff, htrace, ← length_hashTrace, List.drop_length]
  have hresult : t.regs.result = hash64 (windowBytes s.input s.regs.src.toNat s.regs.len.toNat) s.regs.seed := by
    have hpending := ht.pending_eq
    rwa [State.pendingResult, hdone] at hpending
  refine ⟨t, hrun, ?_, ?_, hdone⟩
  · rw [ht.regs_eq, hresult]
  · rw [ht.status_eq, if_pos hdone]
    rfl

end Sys2Proof.Machine
end

section
/-! SUPPORT. Every byte of a window is read, every interleaving gives the digest, and the two commands without a window. -/

namespace Sys2Proof.Machine

open Sys2Proof

/-! ### Every byte of the window is read (20_memory R60) -/

/-- A byte that the HASH64 in progress has still to read. -/
structure State.Unread (s : State) (a : Nat) : Prop where
  absorbing : s.fsm = .bulk ∨ s.fsm = .fold ∨ s.fsm = .medium ∨ s.fsm = .tail
  ptr_le : s.work.ptr.toNat ≤ a
  lt_end : a < s.work.ptr.toNat + s.work.rem.toNat

/-- An ENGINE step reads such a byte or leaves it to be read. -/
theorem State.Sound.read_or_unread {s : State} (h : s.Sound) {a : Nat} (ha : s.Unread a) :
    a ∈ readSet s ∨ (Machine.engineEffect s).Unread a := by
  obtain ⟨hf, hlow, hhigh⟩ := ha
  have hphase := h.phase_inv
  obtain hf | hf | hf | hf := hf <;> rw [hf] at hphase
  case inl =>
    obtain ⟨w, -, hrun, hmin⟩ := phaseInv_bulk.1 hphase
    obtain hnow | hlater := Nat.lt_or_ge a (s.work.ptr.toNat + 64)
    · exact .inl ((mem_readSet_bulk hf a).2 ⟨hlow, hnow⟩)
    · have hptr := bulkStep_ptr hrun.unabsorbed_le h.cfg_legal hmin
      have hrem := bulkStep_rem hmin
      simp only [Machine.engineEffect, hf]
      refine .inr ⟨?_, by omega, by omega⟩
      simp only [bulkStep]
      split_ifs
      · exact .inl rfl
      · exact .inr (.inl rfl)
  case inr.inl =>
    simp only [Machine.engineEffect, hf]
    refine .inr ⟨?_, hlow, hhigh⟩
    simp only [foldStep]
    split_ifs
    · exact .inr (.inr (.inl rfl))
    · exact .inr (.inr (.inr rfl))
  case inr.inr.inl =>
    obtain ⟨w, -, hrun, hmin, -⟩ := phaseInv_medium.1 hphase
    obtain hnow | hlater := Nat.lt_or_ge a (s.work.ptr.toNat + 16)
    · exact .inl ((mem_readSet_medium hf a).2 ⟨hlow, hnow⟩)
    · have hptr := mediumStep_ptr hrun.unabsorbed_le h.cfg_legal hmin
      have hrem := mediumStep_rem hmin
      simp only [Machine.engineEffect, hf]
      refine .inr ⟨?_, by omega, by omega⟩
      simp only [mediumStep]
      split_ifs
      · exact .inr (.inr (.inl rfl))
      · exact .inr (.inr (.inr rfl))
  case inr.inr.inr =>
    obtain ⟨w, -, -, hmax, -⟩ := phaseInv_tail.1 hphase
    exact .inl ((mem_readSet_tail hf hmax a).2 ⟨hlow, hhigh⟩)

/-- It is read within the steps to come. -/
theorem State.RunsAlone.reads_unread {regs : Regs} {v : Word} {a : Nat} (n : Nat) : ∀ {s : State},
    s.RunsAlone regs v → s.Unread a → s.trace.length = n →
    ∃ (k : Nat) (u : State), k < n ∧ Sys2Proof.core.run (k + 1) s = .next u ∧ a ∈ u.reads := by
  induction n with
  | zero =>
    intro s h ha hlength
    have hidle : s.fsm = .idle := (trace_eq_nil_iff s).1 (List.length_eq_zero_iff.1 hlength)
    obtain hf | hf | hf | hf := ha.absorbing <;> cases hidle.symm.trans hf
  | succ n ih =>
    intro s h ha hlength
    obtain hread | hleft := h.sound_noReads.read_or_unread (a := a) { ha with }
    · exact ⟨0, s.engineTurn, n.succ_pos, (run_one s).trans h.step_eq, hread⟩
    · have hless : s.engineTurn.trace.length = n := by rw [h.trace_engineTurn, List.length_tail, hlength, Nat.add_sub_cancel]
      obtain ⟨k, u, hk, hrun, hu⟩ := ih h.engineTurn { hleft with } hless
      exact ⟨k + 1, u, Nat.succ_lt_succ hk, (run_succ_of_step h.step_eq (k + 1)).trans hrun, hu⟩

/-- Settles O58: at acceptance every byte of the window is unread, and the steps to come are those of R106. -/
theorem everyWindowByteIsRead : Obligations.EveryWindowByteIsRead := by
  unfold Obligations.EveryWindowByteIsRead
  intro s hc hidle hfits hmoves i hi
  obtain ⟨u, hstep, hu, htrace, hfsm, hptr, hrem⟩ := hash64_starts hc hidle hfits hmoves
  have hunread : u.Unread (s.regs.src.toNat + i) := by
    refine ⟨?_, by rw [hptr]; omega, by rw [hptr, hrem]; omega⟩
    rw [hfsm, phase_eq]
    split_ifs <;> simp
  obtain ⟨k, t, hk, hrun, ht⟩ := hu.reads_unread _ hunread (htrace ▸ length_hashTrace _)
  exact ⟨k, t, hk, (run_succ_of_step hstep (k + 1)).trans hrun, ht⟩

/-! ### Every interleaving (41_digest_core R109, R112) -/

/-- What a command in progress will write depends on its working registers and the input space. -/
theorem pendingResult_congr {s t : State} (hf : s.fsm ≠ .idle) (hfsm : t.fsm = s.fsm) (hwork : t.work = s.work)
    (hinput : t.input = s.input) : t.pendingResult = s.pendingResult := by
  have hbytes : t.inputByte = s.inputByte := by
    funext a
    rw [State.inputByte, hinput, State.inputByte]
  rw [State.pendingResult, State.pendingResult, hfsm]
  cases h : s.fsm
  case idle => exact absurd h hf
  all_goals simp only [State.absorb, hwork, hbytes]

/-- With a window the ENGINE is in a phase of a HASH64. -/
theorem PhaseInv.running {space : Nat} {fsm : Fsm} {work : Work} {w : Window} (h : PhaseInv space fsm work (some w)) :
    w.Running space work := by
  cases fsm with
  | idle | mixo => exact h.elim
  | bulk | fold | medium | tail | fin1 | fin2 => exact h.1

/-- A store outside the window changes no byte that the HASH64 has still to read. -/
theorem pendingResult_hostStore {s : State} {w : Window} {a : Nat} {b : Byte} (hwf : Memory.wf s.input)
    (hrun : w.Running s.spaceSize s.work) (ha : ¬(w.base ≤ a ∧ a < w.base + w.len)) :
    (hostStore a b s).pendingResult = s.pendingResult := by
  have hbytes : ∀ i, s.work.ptr.toNat ≤ i → i < s.work.ptr.toNat + s.work.rem.toNat →
      (hostStore a b s).inputByte (0 + i) = s.inputByte i := fun i hlow hhigh => by
    obtain ⟨hbase, hend, -⟩ := hrun.unabsorbed_inside hlow hhigh
    have hne : i ≠ a := fun heq => ha ⟨heq ▸ hbase, heq ▸ hend⟩
    rw [Nat.zero_add, hostStore_inputByte s a b i hwf, if_neg hne]
  have hshift : Absorb.Shifted s.inputByte (hostStore a b s).inputByte 0 s.absorb s.absorb :=
    { cs := rfl, ds := rfl, pos := (Nat.zero_add _).symm, rem := rfl, bytes := hbytes }
  rw [State.pendingResult, State.pendingResult, hostStore_fsm]
  cases s.fsm
  case bulk => exact hshift.digestFromBulk_eq _
  case fold => exact hshift.fold.digestFromMedium_eq _
  case medium | tail => exact hshift.digestFromMedium_eq _
  case idle | fin1 | fin2 | mixo => rfl

/-- A step takes its move off the interleaving and adds none. -/
theorem step_moves {s t : State} (h : step s = .next t) : t.moves = s.moves.tail := by
  obtain ⟨-, -, rfl⟩ | ⟨e, i, -, -, rfl⟩ | ⟨e, r, -, -, rfl⟩ | ⟨-, rfl⟩ | ⟨a, b, -, -, rfl⟩ := step_cases h
  · exact (sameOutside_engineEffect (takeMove s)).moves
  · exact (sameOutside_execState (takeMove s) i).moves
  · exact (sameOutside_illegalCommand (takeMove s)).moves
  · rfl
  · rfl

/-- A HASH64 in progress over an unchanged window that will write `v`, with no move to come that its digest notices. -/
structure State.Computes (base len : Nat) (v : Word) (s : State) : Prop where
  inv : s.Inv
  busy : s.status.busy = true
  window_eq : s.window = some { base := base, len := len, stable := true }
  pending_eq : s.pendingResult = v
  undisturbing : ∀ m ∈ s.moves, m.Undisturbing base len

/-- The HASH64 is over and has written `v`. -/
structure State.Computed (v : Word) (s : State) : Prop where
  idle : s.status.busy = false
  result_eq : s.regs.result = v
  done : s.status.done = true
  err : s.status.err = false

section
variable {base len : Nat} {v : Word} {s t : State}

theorem nextMove_undisturbing (h : ∀ m ∈ s.moves, m.Undisturbing base len) : (nextMove s).Undisturbing base len := by
  unfold nextMove
  cases hmoves : s.moves with
  | nil => trivial
  | cons m rest => exact h m (hmoves ▸ List.mem_cons_self)

/-- Where a step leaves the command, its window and what it will write as they are, the HASH64 goes on. -/
theorem State.Computes.of_step (h : s.Computes base len v) (hstep : step s = .next t)
    (hbusy : t.status.busy = true) (hwindow : t.window = s.window) (hpending : t.pendingResult = s.pendingResult) :
    t.Computes base len v where
  inv := everyStepKeepsTheInvariant s t h.inv hstep
  busy := hbusy
  window_eq := hwindow.trans h.window_eq
  pending_eq := hpending.trans h.pending_eq
  undisturbing := fun m hm => h.undisturbing m (List.mem_of_mem_tail (step_moves hstep ▸ hm))

variable (h : s.Computes base len v)
include h

theorem State.Computes.sound : (takeMove s).Sound where
  cfg_legal := h.inv.cfg_legal
  phase_inv := h.inv.phase_inv
  unbroken := by simp [State.windowBroken, h.window_eq]

/-- A step of the HASH64 goes on with it or completes it. -/
theorem State.Computes.step (hstep : step s = .next t) : t.Computes base len v ∨ t.Computed v := by
  have hrun : runMove (nextMove s) (takeMove s) = .next t := hstep
  have hnext := nextMove_undisturbing h.undisturbing
  have hf : s.fsm ≠ .idle := h.inv.busy_iff.1 h.busy
  cases hmove : nextMove s <;> rw [hmove] at hrun hnext
  case reset => exact hnext.elim
  case store a b =>
    obtain ⟨ha, rfl⟩ := storeTurn_eq_next hrun
    have hphase := h.inv.phase_inv
    rw [h.window_eq] at hphase
    refine .inl (h.of_step hstep h.busy ?_ (pendingResult_hostStore (s := takeMove s) h.inv.input_wf hphase.running hnext))
    have hout : Window.contains { base := base, len := len, stable := true } a = false := by
      have hnot : ¬(base ≤ a ∧ a < base + len) := hnext
      simpa [Window.contains] using hnot
    simp [h.window_eq, hout]
  case host e =>
    obtain ⟨u, hu, hsame⟩ := hostTurn_completes e (takeMove s)
    obtain rfl := Host.Outcome.next.inj (hu.symm.trans hrun)
    obtain ⟨⟨hfsm, hwork, hwindow⟩, hstatus⟩ := hostTurn_of_busy (s := takeMove s) hrun h.busy hnext
    refine .inl (h.of_step hstep ?_ hwindow (pendingResult_congr hf hfsm hwork hsame.input))
    obtain hstatus | hstatus := hstatus <;> rw [hstatus] <;> exact h.busy
  case engine =>
    obtain ⟨-, rfl⟩ := engineStep_next hrun
    have hpending : (engineEffect (takeMove s)).pendingResult = s.pendingResult := h.sound.pendingResult_engineEffect
    obtain ⟨-, r, draws, heq⟩ | ⟨work, fsm, -, heq⟩ := engineEffect_cases (takeMove s)
    · refine .inr ?_
      rw [heq] at hpending ⊢
      exact ⟨rfl, hpending.trans h.pending_eq, rfl, (h.inv.busy_clean h.busy).2⟩
    · refine .inl (h.of_step hstep ?_ ?_ hpending)
      all_goals rw [heq]
      · exact h.busy
      · rfl

end

/-- While its steps leave BUSY set, the HASH64 goes on; the step that clears BUSY has written `v`. -/
theorem State.Computes.run {base len : Nat} {v : Word} (n : Nat) : ∀ {s t : State}, s.Computes base len v →
    (∀ k, 1 ≤ k → k ≤ n → ∃ u : State, Sys2Proof.core.run k s = .next u ∧ u.status.busy = true) →
    Sys2Proof.core.run (n + 1) s = .next t → t.status.busy = false → t.Computed v := by
  induction n with
  | zero =>
    intro s t h _ hrun ht
    obtain hgoes | hdone := h.step ((run_one s).symm.trans hrun)
    · exact absurd (hgoes.busy.symm.trans ht) nofun
    · exact hdone
  | succ n ih =>
    intro s t h hbusy hrun ht
    obtain ⟨u, hu, hubusy⟩ := hbusy 1 (Nat.le_refl 1) (by omega)
    have hstep : Machine.step s = .next u := (run_one s).symm.trans hu
    obtain hgoes | hdone := h.step hstep
    · refine ih hgoes (fun k hmin hmax => ?_) ((run_succ_of_step hstep (n + 1)).symm.trans hrun) ht
      rw [← run_succ_of_step hstep]
      exact hbusy (k + 1) (by omega) (by omega)
    · exact absurd (hdone.idle.symm.trans hubusy) nofun

/-- Settles O57: the acceptance starts the HASH64, which goes on until the step that clears BUSY. -/
theorem everyInterleavingGivesTheDigest : Obligations.EveryInterleavingGivesTheDigest := by
  unfold Obligations.EveryInterleavingGivesTheDigest
  intro s e rest hinv hidle hfits hmoves hword hrest n t hbusy hrun ht
  obtain ⟨-, hpending, -, hwindow, hstatus, -⟩ :=
    acceptHash64_sound (s := { s with moves := rest, reads := [] }) hinv.cfg_legal hfits
  have hdispatch : dispatch 0x1#64 { s with moves := rest, reads := [] } =
      acceptHash64 { s with moves := rest, reads := [] } := by
    simp [dispatch, hidle]
  have hstep : step s = .next (acceptHash64 { s with moves := rest, reads := [] }) := by
    rw [step_of_moves hmoves, ← hdispatch]
    exact hostTurn_of_commandWord hword _
  have hcomputes : (acceptHash64 { s with moves := rest, reads := [] }).Computes s.regs.src.toNat s.regs.len.toNat
      (hash64 (windowBytes s.input s.regs.src.toNat s.regs.len.toNat) s.regs.seed) :=
    { inv := everyStepKeepsTheInvariant _ _ hinv hstep
      busy := congrArg Status.busy hstatus
      window_eq := hwindow
      pending_eq := hpending
      undisturbing := by rwa [(sameOutside_acceptHash64 _).moves] }
  cases n with
  | zero =>
    have heq := Host.Outcome.next.inj (hstep.symm.trans ((run_one s).symm.trans hrun))
    exact absurd ((heq ▸ hcomputes.busy).symm.trans ht) nofun
  | succ n =>
    have hcomputed := hcomputes.run n (fun k hmin hmax => by
      rw [← run_succ_of_step hstep]
      exact hbusy (k + 1) (by omega) (by omega)) ((run_succ_of_step hstep (n + 1)).symm.trans hrun) ht
    exact ⟨hcomputed.result_eq, hcomputed.done, hcomputed.err⟩

/-! ### The commands without a window (42_fixed_pair R131, 40_mixing_primitive R90, R91) -/

/-- Settles O59: FIN1 and FIN2 are the finalization of `hash64Pair`, and a HASH64 of 16 bytes takes 3 steps. -/
theorem pairEqualsTheDigestOfItsBytes : Obligations.PairEqualsTheDigestOfItsBytes := by
  unfold Obligations.PairEqualsTheDigestOfItsBytes
  intro s hidle hmoves
  have haccept : step s = .next (acceptHash64Pair { s with moves := [], reads := [] }) :=
    (stepRunsTheDecodedTransaction s _ .hash64Pair [] hmoves rfl).trans (exec_hash64Pair_idle hidle)
  have hfin1 := (step_of_no_moves rfl).trans
    (finOneMixesTheTail { acceptHash64Pair { s with moves := [], reads := [] } with reads := [] } rfl)
  refine ⟨_, (run_succ_of_step haccept 2).trans ((run_succ_of_step hfin1 1).trans ((run_one _).trans
    ((step_of_no_moves rfl).trans (finTwoWritesTheDigest _ rfl rfl)))), ?_, rfl, rfl, ?_⟩
  · rw [hash64_wordBytes]
    rfl
  · intro u hc huidle humoves hlen hsrc hseed hbytes
    have hlength : u.regs.len.toNat = 16 := congrArg BitVec.toNat hlen
    obtain ⟨v, hrun, hregs, -⟩ := hash64ComputesTheDigest u hc huidle (by rwa [hlength]) humoves
    rw [hlength] at hrun hregs
    refine ⟨v, hrun, ?_⟩
    rw [hregs, hbytes, hseed, hash64_wordBytes]
    rfl

/-- Settles O60: the acceptance, and MIXO. -/
theorem mixCommandGivesTheMixerValue : Obligations.MixCommandGivesTheMixerValue := by
  unfold Obligations.MixCommandGivesTheMixerValue
  intro s hidle hmoves
  have haccept := (stepRunsTheDecodedTransaction s _ .mix64 [] hmoves rfl).trans (mixIsAcceptedWhileIdle _ hidle)
  refine ⟨_, (run_succ_of_step haccept 1).trans ((run_one _).trans
    ((step_of_no_moves rfl).trans (mixoWritesTheProduct _ rfl))), rfl, rfl, rfl, rfl⟩

end Sys2Proof.Machine
end
